-- ==== Sys2Proof/Word.lean ====
section
/-! DEFINITION. The unsigned types of the spec (00_scope.md rule R11): every value the machine adds, masks or
encodes is an unsigned bit vector of one of four widths. -/

namespace Sys2Proof

/-- `u4`: a register number, a sprite height, a nibble of an instruction word. -/
abbrev Nibble := BitVec 4

/-- A register number: the 4-bit fields `x` and `y` name one of the sixteen registers V0..VF (R22). -/
abbrev Reg := BitVec 4

/-- `u8`: a byte of memory, a general register, a timer. -/
abbrev Byte := BitVec 8

/-- `u12`: the address field `nnn` of an instruction word. -/
abbrev Addr := BitVec 12

/-- `u16`: an instruction word, the index register, the program counter, a return address. -/
abbrev Word := BitVec 16

/-- VF, the register that doubles as the only flag (R23, R25). -/
abbrev Reg.vf : Reg := 15#4

end Sys2Proof
end

