-- ==== Sys2Proof/Syntax.lean ====
section
/-! DEFINITION. The 35 opcodes (30_encoding.md rules R73 and R83), one constructor for each row of
spec/opcode_table.json, in the table's order. Every field of a word is an operand, also the fields a handler
does not read (`nnn` of SYS, `y` of SHR and SHL, the low nibble `s` of SE_REG and SNE_REG), so that no bit of an
encoding is lost. -/

namespace Sys2Proof

inductive Instr where
  /-- 0NNN `SYS addr`, R110. -/
  | sys (nnn : Addr)
  /-- 00E0 `CLS`, R111. -/
  | cls
  /-- 00EE `RET`, R112. -/
  | ret
  /-- 1NNN `JP addr`, R113. -/
  | jp (nnn : Addr)
  /-- 2NNN `CALL addr`, R114. -/
  | call (nnn : Addr)
  /-- 3XNN `SE Vx, byte`, R130. -/
  | seImm (x : Reg) (kk : Byte)
  /-- 4XNN `SNE Vx, byte`, R131. -/
  | sneImm (x : Reg) (kk : Byte)
  /-- 5XYs `SE Vx, Vy`, R132; `s` is not examined (R80). -/
  | seReg (x y : Reg) (s : Nibble)
  /-- 6XNN `LD Vx, byte`, R133. -/
  | ldImm (x : Reg) (kk : Byte)
  /-- 7XNN `ADD Vx, byte`, R134. -/
  | addImm (x : Reg) (kk : Byte)
  /-- 8XY0 `LD Vx, Vy`, R150. -/
  | ldReg (x y : Reg)
  /-- 8XY1 `OR Vx, Vy`, R151. -/
  | orReg (x y : Reg)
  /-- 8XY2 `AND Vx, Vy`, R152. -/
  | andReg (x y : Reg)
  /-- 8XY3 `XOR Vx, Vy`, R153. -/
  | xorReg (x y : Reg)
  /-- 8XY4 `ADD Vx, Vy`, R154. -/
  | addReg (x y : Reg)
  /-- 8XY5 `SUB Vx, Vy`, R155. -/
  | sub (x y : Reg)
  /-- 8XY6 `SHR Vx, Vy`, R156; `y` is encoded but not read. -/
  | shr (x y : Reg)
  /-- 8XY7 `SUBN Vx, Vy`, R157. -/
  | subn (x y : Reg)
  /-- 8XYE `SHL Vx, Vy`, R158; `y` is encoded but not read. -/
  | shl (x y : Reg)
  /-- 9XYs `SNE Vx, Vy`, R135; `s` is not examined (R80). -/
  | sneReg (x y : Reg) (s : Nibble)
  /-- ANNN `LD I, addr`, R170. -/
  | ldI (nnn : Addr)
  /-- BNNN `JP V0, addr`, R171. -/
  | jpV0 (nnn : Addr)
  /-- CXNN `RND Vx, byte`, R173. -/
  | rnd (x : Reg) (kk : Byte)
  /-- DXYN `DRW Vx, Vy, nibble`, R174. -/
  | drw (x y : Reg) (n : Nibble)
  /-- EX9E `SKP Vx`, R190. -/
  | skp (x : Reg)
  /-- EXA1 `SKNP Vx`, R191. -/
  | sknp (x : Reg)
  /-- FX07 `LD Vx, DT`, R192. -/
  | ldVxDt (x : Reg)
  /-- FX0A `LD Vx, K`, R193. -/
  | ldVxK (x : Reg)
  /-- FX15 `LD DT, Vx`, R194. -/
  | ldDtVx (x : Reg)
  /-- FX18 `LD ST, Vx`, R195. -/
  | ldStVx (x : Reg)
  /-- FX1E `ADD I, Vx`, R196. -/
  | addIVx (x : Reg)
  /-- FX29 `LD F, Vx`, R197. -/
  | ldFVx (x : Reg)
  /-- FX33 `LD B, Vx`, R198. -/
  | ldBVx (x : Reg)
  /-- FX55 `LD [I], Vx`, R199. -/
  | ldMemVx (x : Reg)
  /-- FX65 `LD Vx, [I]`, R200. -/
  | ldVxMem (x : Reg)
deriving DecidableEq, Repr

end Sys2Proof
end

