-- ==== Sys2Proof/Decode.lean ====
section
/-! DEFINITION. From bytes to an instruction and back (30_encoding.md; 40_cycle.md rules R93 and R94): the byte
order of a word, its six fields, the dispatch map, and the encoder written from the same layouts. -/

namespace Sys2Proof

/-! ### Words and bytes -/

/-- Two bytes as one word, the first one (at the lower address) in bits 15..8 (R50). -/
def wordOfBytes (hi lo : Byte) : Word := hi ++ lo

/-- Bits 15..8 of a word, the byte stored at the lower address (R50). -/
def highByte (op : Word) : Byte := op.extractLsb' 8 8

/-- Bits 7..0 of a word, the byte stored at the higher address (R50). -/
def lowByte (op : Word) : Byte := op.extractLsb' 0 8

/-! ### The fields of a word (R71) -/

/-- `hi = op[15:12]`, the family. -/
def opHi (op : Word) : Nibble := op.extractLsb' 12 4

/-- `nnn = op[11:0]`. -/
def opNnn (op : Word) : Addr := op.extractLsb' 0 12

/-- `x = op[11:8]`. -/
def opX (op : Word) : Reg := op.extractLsb' 8 4

/-- `y = op[7:4]`. -/
def opY (op : Word) : Reg := op.extractLsb' 4 4

/-- `kk = op[7:0]`. -/
def opKk (op : Word) : Byte := op.extractLsb' 0 8

/-- `n = op[3:0]`. -/
def opN (op : Word) : Nibble := op.extractLsb' 0 4

/-! ### Dispatch (R75 to R80, R94) -/

/-- Why bytes are no instruction. -/
inductive DecodeError where
  /-- Family 8 with a selector of {8, 9, A, B, C, D, F} (R77, R81). -/
  | unknownAlu (op : Word)
  /-- Family E with a selector other than 9E and A1 (R78, R81). -/
  | unknownKey (op : Word)
  /-- Family F with none of the nine selectors (R79, R81). -/
  | unknownMisc (op : Word)
  /-- Fewer than two bytes: not a word (R70). -/
  | truncated
deriving DecidableEq, Repr

/-- Family 0 selects on the whole word; the two fixed words come before 0NNN (R76). -/
def decodeSystem (op : Word) : Instr :=
  if op = 0x00E0#16 then .cls
  else if op = 0x00EE#16 then .ret
  else .sys (opNnn op)

/-- Family 8 selects on `n` (R77). -/
def decodeAlu (op : Word) : Except DecodeError Instr :=
  if opN op = 0x0#4 then .ok (.ldReg (opX op) (opY op))
  else if opN op = 0x1#4 then .ok (.orReg (opX op) (opY op))
  else if opN op = 0x2#4 then .ok (.andReg (opX op) (opY op))
  else if opN op = 0x3#4 then .ok (.xorReg (opX op) (opY op))
  else if opN op = 0x4#4 then .ok (.addReg (opX op) (opY op))
  else if opN op = 0x5#4 then .ok (.sub (opX op) (opY op))
  else if opN op = 0x6#4 then .ok (.shr (opX op) (opY op))
  else if opN op = 0x7#4 then .ok (.subn (opX op) (opY op))
  else if opN op = 0xE#4 then .ok (.shl (opX op) (opY op))
  else .error (.unknownAlu op)

/-- Family E selects on `kk` (R78). -/
def decodeKey (op : Word) : Except DecodeError Instr :=
  if opKk op = 0x9E#8 then .ok (.skp (opX op))
  else if opKk op = 0xA1#8 then .ok (.sknp (opX op))
  else .error (.unknownKey op)

/-- Family F selects on `kk` (R79). -/
def decodeMisc (op : Word) : Except DecodeError Instr :=
  if opKk op = 0x07#8 then .ok (.ldVxDt (opX op))
  else if opKk op = 0x0A#8 then .ok (.ldVxK (opX op))
  else if opKk op = 0x15#8 then .ok (.ldDtVx (opX op))
  else if opKk op = 0x18#8 then .ok (.ldStVx (opX op))
  else if opKk op = 0x1E#8 then .ok (.addIVx (opX op))
  else if opKk op = 0x29#8 then .ok (.ldFVx (opX op))
  else if opKk op = 0x33#8 then .ok (.ldBVx (opX op))
  else if opKk op = 0x55#8 then .ok (.ldMemVx (opX op))
  else if opKk op = 0x65#8 then .ok (.ldVxMem (opX op))
  else .error (.unknownMisc op)

/-- The instruction a word stands for, or the family whose selector names none (R94). DESIGN CHOICE of the spec
(unsafe, log entry 10): families 5 and 9 do not examine the low nibble (R80, 92_eei_decisions.md D10). -/
def decode (op : Word) : Except DecodeError Instr :=
  if opHi op = 0x0#4 then .ok (decodeSystem op)
  else if opHi op = 0x1#4 then .ok (.jp (opNnn op))
  else if opHi op = 0x2#4 then .ok (.call (opNnn op))
  else if opHi op = 0x3#4 then .ok (.seImm (opX op) (opKk op))
  else if opHi op = 0x4#4 then .ok (.sneImm (opX op) (opKk op))
  else if opHi op = 0x5#4 then .ok (.seReg (opX op) (opY op) (opN op))
  else if opHi op = 0x6#4 then .ok (.ldImm (opX op) (opKk op))
  else if opHi op = 0x7#4 then .ok (.addImm (opX op) (opKk op))
  else if opHi op = 0x8#4 then decodeAlu op
  else if opHi op = 0x9#4 then .ok (.sneReg (opX op) (opY op) (opN op))
  else if opHi op = 0xA#4 then .ok (.ldI (opNnn op))
  else if opHi op = 0xB#4 then .ok (.jpV0 (opNnn op))
  else if opHi op = 0xC#4 then .ok (.rnd (opX op) (opKk op))
  else if opHi op = 0xD#4 then .ok (.drw (opX op) (opY op) (opN op))
  else if opHi op = 0xE#4 then decodeKey op
  else decodeMisc op

/-- Any bytes: the instruction of the first two, with the bytes after them (R50, R70). -/
def decodeBytes : List Byte → Except DecodeError (Instr × List Byte)
  | hi :: lo :: rest => (decode (wordOfBytes hi lo)).map (fun i => (i, rest))
  | [_] => .error .truncated
  | [] => .error .truncated

/-! ### The encoder (R73) -/

/-- Layout `NNN`: a fixed nibble and an address. -/
def packNNN (h : Nibble) (nnn : Addr) : Word := h ++ nnn

/-- Layouts `XKK` and `X`: a fixed nibble, a register, a byte (immediate or selector). -/
def packXKK (h : Nibble) (x : Reg) (kk : Byte) : Word := h ++ x ++ kk

/-- Layouts `XY` and `XYN`: a fixed nibble, two registers, a nibble (row count or selector). -/
def packXYN (h : Nibble) (x y : Reg) (n : Nibble) : Word := h ++ x ++ y ++ n

/-- The word of an instruction. -/
def encode : Instr → Word
  | .sys nnn => packNNN 0x0#4 nnn
  | .cls => 0x00E0#16
  | .ret => 0x00EE#16
  | .jp nnn => packNNN 0x1#4 nnn
  | .call nnn => packNNN 0x2#4 nnn
  | .seImm x kk => packXKK 0x3#4 x kk
  | .sneImm x kk => packXKK 0x4#4 x kk
  | .seReg x y s => packXYN 0x5#4 x y s
  | .ldImm x kk => packXKK 0x6#4 x kk
  | .addImm x kk => packXKK 0x7#4 x kk
  | .ldReg x y => packXYN 0x8#4 x y 0x0#4
  | .orReg x y => packXYN 0x8#4 x y 0x1#4
  | .andReg x y => packXYN 0x8#4 x y 0x2#4
  | .xorReg x y => packXYN 0x8#4 x y 0x3#4
  | .addReg x y => packXYN 0x8#4 x y 0x4#4
  | .sub x y => packXYN 0x8#4 x y 0x5#4
  | .shr x y => packXYN 0x8#4 x y 0x6#4
  | .subn x y => packXYN 0x8#4 x y 0x7#4
  | .shl x y => packXYN 0x8#4 x y 0xE#4
  | .sneReg x y s => packXYN 0x9#4 x y s
  | .ldI nnn => packNNN 0xA#4 nnn
  | .jpV0 nnn => packNNN 0xB#4 nnn
  | .rnd x kk => packXKK 0xC#4 x kk
  | .drw x y n => packXYN 0xD#4 x y n
  | .skp x => packXKK 0xE#4 x 0x9E#8
  | .sknp x => packXKK 0xE#4 x 0xA1#8
  | .ldVxDt x => packXKK 0xF#4 x 0x07#8
  | .ldVxK x => packXKK 0xF#4 x 0x0A#8
  | .ldDtVx x => packXKK 0xF#4 x 0x15#8
  | .ldStVx x => packXKK 0xF#4 x 0x18#8
  | .addIVx x => packXKK 0xF#4 x 0x1E#8
  | .ldFVx x => packXKK 0xF#4 x 0x29#8
  | .ldBVx x => packXKK 0xF#4 x 0x33#8
  | .ldMemVx x => packXKK 0xF#4 x 0x55#8
  | .ldVxMem x => packXKK 0xF#4 x 0x65#8

/-- The bytes of an instruction as memory holds them (R50). -/
def encodeBytes (i : Instr) : List Byte := [highByte (encode i), lowByte (encode i)]

/-! ### The opcode table's numbering -/

/-- The word whose low `nbits` bits are those of `w`; every instruction is one 16-bit word (R70). -/
def tableWord (nbits w : Nat) : Word := BitVec.ofNat 16 (w % 2 ^ nbits)

/-- What the decoder reads from a row of spec/opcode_table.json whose bits are `w`. -/
def decodeTableWord (nbits w : Nat) : Option Instr :=
  match decodeBytes [highByte (tableWord nbits w), lowByte (tableWord nbits w)] with
  | .ok (i, _) => some i
  | .error _ => none

end Sys2Proof
end

