-- ==== Sys2Proof/Config.lean ====
section
/-! DEFINITION. What is fixed for a session (00_scope.md rule R9) and the one value the spec leaves free: the
random byte a step receives (44_index_draw.md rule R172). -/

namespace Sys2Proof

/-- The default glyph image, 16 glyphs of 5 bytes, glyph k at offset 5k (70_reset_and_hazards.md rule R251).
PRESUMED (unsafe for a claim about glyph shapes): the spec takes these bytes from general knowledge
(92_eei_decisions.md D16), log entry 4. -/
def defaultFont : List Byte :=
  [0xF0, 0x90, 0x90, 0x90, 0xF0, 0x20, 0x60, 0x20, 0x20, 0x70] ++
  [0xF0, 0x10, 0xF0, 0x80, 0xF0, 0xF0, 0x10, 0xF0, 0x10, 0xF0] ++
  [0x90, 0x90, 0xF0, 0x10, 0x10, 0xF0, 0x80, 0xF0, 0x10, 0xF0] ++
  [0xF0, 0x80, 0xF0, 0x90, 0xF0, 0xF0, 0x10, 0x20, 0x40, 0x40] ++
  [0xF0, 0x90, 0xF0, 0x90, 0xF0, 0xF0, 0x90, 0xF0, 0x10, 0xF0] ++
  [0xF0, 0x90, 0xF0, 0x90, 0x90, 0xE0, 0x90, 0xE0, 0x90, 0xE0] ++
  [0xF0, 0x80, 0x80, 0x80, 0xF0, 0xE0, 0x90, 0x90, 0x90, 0xE0] ++
  [0xF0, 0x80, 0xF0, 0x80, 0xF0, 0xF0, 0x80, 0xF0, 0x80, 0x80]

/-- The two arguments a session is created with (R9). -/
structure Config where
  /-- `HALT_ON_UNKNOWN`: does an unknown opcode halt the machine (40_cycle.md rule R95)? -/
  haltOnUnknown : Bool
  /-- `FONT`: the 80 bytes copied to addresses 0..79 at creation. -/
  font : Vector Byte 80
deriving DecidableEq, Repr

/-- The values this hardware takes by default (R9). -/
def Config.default : Config where
  haltOnUnknown := true
  font := ⟨defaultFont.toArray, by decide⟩

/-- The random byte of the n-th draw. It has no body: no law, no seed, no distribution (R172,
92_eei_decisions.md D25), so what is proved with it holds for every sequence of bytes. Log entry 1. -/
opaque Config.randomByte : Nat → Byte

end Sys2Proof
end

