-- ==== Sys2Proof/Machine/State.lean ====
section
/-! DEFINITION. The state record (10_state.md rule R20), the ways a step can fail to give a next state, and the
state after reset (rule R38). Plain data throughout. -/

namespace Sys2Proof.Machine

/-- Why a step gives no next state. A condition that halts the machine is no fault: the halt is a next state
whose run state is Halted (60_exceptions.md rule R222). -/
inductive Fault where
  /-- Raised by `step` when the machine is Paused: no step exists there (40_cycle.md rule R90). Safe. -/
  | stepWhilePaused
  /-- Raised by `step` when the machine is Halted, which is terminal (R90; 60_exceptions.md rule R224). Safe. -/
  | stepWhileHalted
  /-- Raised by `transition` when the host calls an operation in a run state in which it is not allowed
  (60_exceptions.md rule R230). Safe. -/
  | hostOpNotAllowed
deriving DecidableEq, Repr

/-- Why an instruction has no meaning in the model. -/
inductive Refusal where
  /-- Raised by an arm of `exec` whose instruction is not modelled; no arm of this model raises it. Safe. -/
  | notModelled (mnemonic : String)
deriving DecidableEq, Repr

/-- `run_state` (R36). -/
inductive RunState where
  | running
  | paused
  | halted
deriving DecidableEq, Repr

/-- The halt reasons, codes 1 to 7 (60_exceptions.md rule R221). -/
inductive HaltReason where
  | unknownOpcode
  | stackOverflow
  | stackUnderflow
  | fetchRange
  | memRange
  | keyRange
  | quit
deriving DecidableEq, Repr

/-- The triple {reason, opcode, pc} of `halt_info` and of a diagnostic event (R20; 40_cycle.md rule R96). -/
structure HaltRecord where
  reason : HaltReason
  opcode : Option Word
  pc : Word
deriving DecidableEq, Repr

/-- A diagnostic event carries the same triple as a halt record (40_cycle.md rule R96). -/
abbrev Diagnostic := HaltRecord

/-- Main memory: the bytes that differ from the reset contents, by rising address (`Memory.wf`). -/
abbrev Memory := List Host.Cell

/-- The 64 by 32 grid, row-major: pixel (px, py) is entry py * 64 + px, `true` is on (R33). -/
abbrev Framebuffer := Vector Bool 2048

/-- The state of the block. The last three fields are the model's own (log entries 1, 2 and 3). -/
structure State where
  /-- 4096 bytes of memory (R34). -/
  mem : Memory
  /-- The general registers V0..VF (R22). -/
  V : Vector Byte 16
  /-- The index register (R26). -/
  I : Word
  /-- The program counter (R27). -/
  PC : Word
  /-- The twelve slots of the call stack (R30). -/
  stack : Vector Word 12
  /-- The depth of the call stack, 0 to 12 (R30). -/
  SP : Fin 13
  /-- The framebuffer (R33). -/
  fb : Framebuffer
  /-- The delay timer (R31). -/
  DT : Byte
  /-- The sound timer (R31). -/
  ST : Byte
  /-- The sixteen keypad flags, `true` is pressed (R32). -/
  key : Vector Bool 16
  /-- The word fetched last (R35). -/
  cur : Word
  /-- Running, Paused or Halted (R36). -/
  runState : RunState
  /-- Why and where the machine halted (R36; 60_exceptions.md rule R222). -/
  haltInfo : Option HaltRecord
  /-- `HALT_ON_UNKNOWN`, fixed for a session and written by no step (R37). -/
  haltOnUnknown : Bool
  /-- How many random bytes have been drawn; the next one is `Config.randomByte draws`. -/
  draws : Nat
  /-- The diagnostic events emitted so far, oldest first. -/
  diags : List Diagnostic
deriving DecidableEq, Repr

/-- The answer of a meaning, of `exec` and of `step`. -/
abbrev Result := Host.Outcome State Fault Refusal

/-- The machine after the load of an empty ROM with the default configuration (R38; 70_reset_and_hazards.md rules
R250 and R252). A program is loaded by `create` or placed by `State.withFetchWord` (log entry 8). -/
def State.reset : State where
  mem := []
  V := Vector.replicate 16 0
  I := 0
  PC := 0x200
  stack := Vector.replicate 12 0
  SP := 0
  fb := Vector.replicate 2048 false
  DT := 0
  ST := 0
  key := Vector.replicate 16 false
  cur := 0
  runState := .running
  haltInfo := none
  haltOnUnknown := true
  draws := 0
  diags := []

end Sys2Proof.Machine
end

