-- ==== Sys2Proof/Machine/Ops.lean ====
section
/-! DEFINITION. The operations every meaning is made of: memory (20_memory.md), registers (10_state.md), the call
stack, the framebuffer (44_index_draw.md rule R174), and taking a halt (60_exceptions.md rule R222). -/

namespace Sys2Proof.Machine

/-! ### Memory -/

/-- What an address reads as while nothing has written it: the font at 0..79, else 0 (20_memory.md rule R57). -/
def resetByte (a : Nat) : Byte := defaultFont.getD a 0

/-- `MemRead(a, 1)` (00_scope.md rule R13). Callers check the range first; log entry 19 says what is read past
4095. -/
def Memory.read : Memory → Nat → Byte
  | [], a => resetByte a
  | (b, v) :: m, a => if a = b then v else Memory.read m a

/-- The list with byte `v` at `a`, in canonical form again: an entry equal to the reset contents is dropped. -/
def Memory.put : Memory → Nat → Byte → Memory
  | [], a, v => if v = resetByte a then [] else [(a, v)]
  | (b, w) :: m, a, v =>
    if a < b then (if v = resetByte a then (b, w) :: m else (a, v) :: (b, w) :: m)
    else if a = b then (if v = resetByte a then m else (a, v) :: m)
    else (b, w) :: Memory.put m a v

/-- `MemWrite(a, 1, v)` (R13): every address below 4096 is writable (20_memory.md rule R58); there is no other. -/
def Memory.write (m : Memory) (a : Nat) (v : Byte) : Memory :=
  if a < 4096 then m.put a v else m

/-- The canonical form: addresses strictly rising and below 4096, no entry equal to the reset contents. -/
abbrev Memory.wf (m : Memory) : Prop :=
  m.Pairwise (fun c d => c.1 < d.1) ∧ ∀ c ∈ m, c.1 < 4096 ∧ c.2 ≠ resetByte c.1

/-- A run of bytes stored by rising address (20_memory.md rule R51). -/
def Memory.writeList (m : Memory) (a : Nat) : List Byte → Memory
  | [] => m
  | v :: vs => Memory.writeList (m.write a v) (a + 1) vs

/-- A run of `n` bytes read by rising address (R51). -/
def Memory.readList (m : Memory) (a : Nat) : Nat → List Byte
  | 0 => []
  | n + 1 => m.read a :: Memory.readList m (a + 1) n

/-- One byte of the machine's memory. -/
def State.readByte (s : State) (a : Nat) : Byte := s.mem.read a

/-- The machine with another memory. -/
def State.setMem (s : State) (m : Memory) : State := { s with mem := m }

/-! ### Registers -/

/-- `V[x]`. -/
def State.reg (s : State) (x : Reg) : Byte := s.V[x.toNat]'x.isLt

/-- `V[x] <- v`. -/
def State.setReg (s : State) (x : Reg) (v : Byte) : State := { s with V := s.V.set x.toNat v x.isLt }

/-- The register file with the bytes of a list put from index `k` on. -/
def setRegsFrom (V : Vector Byte 16) (k : Nat) : List Byte → Vector Byte 16
  | [] => V
  | v :: vs => setRegsFrom (V.setIfInBounds k v) (k + 1) vs

/-- `V[0]`, `V[1]`, ... written with the bytes of a list. -/
def State.setRegs (s : State) (vs : List Byte) : State := { s with V := setRegsFrom s.V 0 vs }

/-- `I <- v`. -/
def State.setI (s : State) (v : Word) : State := { s with I := v }

/-- `PC <- v`. -/
def State.setPC (s : State) (v : Word) : State := { s with PC := v }

/-- Skip the next instruction: a further 2 after the automatic advance (42_skip_imm.md rule R136). -/
def State.skip (s : State) : State := s.setPC (s.PC + 2#16)

/-- Skip when the condition holds. -/
def State.skipIf (s : State) (c : Bool) : State := if c then s.skip else s

/-- `DT <- v`. -/
def State.setDT (s : State) (v : Byte) : State := { s with DT := v }

/-- `ST <- v`. -/
def State.setST (s : State) (v : Byte) : State := { s with ST := v }

/-- The machine after one more random byte has been used (log entry 1). -/
def State.nextDraw (s : State) : State := { s with draws := s.draws + 1 }

/-! ### The call stack (10_state.md rule R30) -/

/-- Push: `stack[SP] <- v; SP <- SP + 1`, when the stack holds fewer than 12 entries. -/
def State.push? (s : State) (v : Word) : Option State :=
  if h : s.SP.val < 12 then
    some { s with stack := s.stack.set s.SP.val v h, SP := ⟨s.SP.val + 1, Nat.succ_lt_succ h⟩ }
  else none

/-- Pop: `SP <- SP - 1`, giving `stack[SP]`, when the stack is not empty. The slot is not cleared. -/
def State.pop? (s : State) : Option (Word × State) :=
  if 0 < s.SP.val then
    some (s.stack[s.SP.val - 1]'(by have := s.SP.isLt; omega),
      { s with SP := ⟨s.SP.val - 1, by have := s.SP.isLt; omega⟩ })
  else none

/-! ### The keypad -/

/-- The least `k` with `key[k] = true`, if a key is down (45_key_timer_mem.md rule R193). -/
def State.lowestKey? (s : State) : Option Nat := s.key.toList.findIdx? id

/-! ### The framebuffer -/

/-- The machine with another framebuffer. -/
def State.setFb (s : State) (fb : Framebuffer) : State := { s with fb := fb }

/-- All pixels off (41_flow.md rule R111). -/
def clearFb : Framebuffer := Vector.replicate 2048 false

/-- One set bit of a sprite drawn at column `px` of row `py`: a pixel inside the frame is flipped and counts as
hit when it was on; outside the frame it is dropped (44_index_draw.md rule R174). -/
def drawPixel (px py : Nat) : Framebuffer × Bool → Framebuffer × Bool
  | (fb, hit) =>
    if h : px < 64 ∧ py < 32 then
      (fb.set (py * 64 + px) (!fb[py * 64 + px]'(by omega)) (by omega),
        hit || fb[py * 64 + px]'(by omega))
    else (fb, hit)

/-- One row of a sprite: column `c` takes bit `7 - c`, so the most significant bit is leftmost (R175). -/
def drawRow (b : Byte) (x0 py : Nat) (d : Framebuffer × Bool) : Framebuffer × Bool :=
  (List.range 8).foldl (fun d c => if b.getLsbD (7 - c) then drawPixel (x0 + c) py d else d) d

/-- The rows of a sprite, the first one at row `py` (R174). -/
def drawRows (x0 : Nat) : Nat → List Byte → Framebuffer × Bool → Framebuffer × Bool
  | _, [], d => d
  | py, b :: bs, d => drawRows x0 (py + 1) bs (drawRow b x0 py d)

/-! ### Halting -/

/-- Taking a halt: `run_state`, the halt record and the diagnostic event; nothing else changes (60_exceptions.md
rule R222; 40_cycle.md rule R100). Nothing returns from a halt (rule R224). -/
def State.halt (s : State) (reason : HaltReason) (opcode : Option Word) (pc : Word) : State :=
  { s with
    runState := .halted
    haltInfo := some ⟨reason, opcode, pc⟩
    diags := s.diags ++ [⟨reason, opcode, pc⟩] }

/-- The fetch address `a` of the word being executed. DEDUCED (safe, log entry 17): a handler starts with
`PC = a + 2` (40_cycle.md rule R92). -/
def State.fetchAddr (s : State) : Word := s.PC - 2#16

/-- `raise Halt(reason)` in a handler: the record holds the word and its fetch address (00_scope.md rule R14). -/
def raiseHalt (reason : HaltReason) (s : State) : Result :=
  .next (s.halt reason (some s.cur) s.fetchAddr)

/-- `CheckRange` with last address `hi`: past 4095 the handler halts before any of its writes (R13; 20_memory.md
rule R54). -/
def checkRange (hi : Nat) (s : State) (body : Result) : Result :=
  if hi > 4095 then raiseHalt .memRange s else body

end Sys2Proof.Machine
end

