-- ==== Sys2Proof/Machine/Cycle.lean ====
section
/-! DEFINITION. The parts of the instruction cycle around a handler (40_cycle.md): the run-state gate, the fetch,
and the unknown-opcode policy. -/

namespace Sys2Proof.Machine

/-- No step exists unless the machine is Running (R90, log entry 6). -/
def stepGate (s : State) : Option Fault :=
  match s.runState with
  | .running => none
  | .paused => some .stepWhilePaused
  | .halted => some .stepWhileHalted

/-- The word at `PC`, big-endian (R92; 20_memory.md rule R50), unless `PC + 1 > 4095` (R91). -/
def fetchWord (s : State) : Option Word :=
  if s.PC.toNat + 1 > 4095 then none
  else some (wordOfBytes (s.readByte s.PC.toNat) (s.readByte (s.PC.toNat + 1)))

/-- A fetch past the end of memory: the halt record has no opcode, `cur` and `PC` keep their values (R91). -/
def fetchRangeHalt (s : State) : State := s.halt .fetchRange none s.PC

/-- The fetch phase: record the word and advance `PC` by 2 (R92). -/
def State.fetched (s : State) (op : Word) : State := { s with cur := op, PC := s.PC + 2#16 }

/-- The unknown-opcode policy, in a state the fetch phase has left (R95). Without the halt the diagnostic is all
(92_eei_decisions.md D12, log entry 18). -/
def unknownOpcode (s : State) : State :=
  if s.haltOnUnknown then s.halt .unknownOpcode (some s.cur) s.fetchAddr
  else { s with diags := s.diags ++ [⟨.unknownOpcode, some s.cur, s.fetchAddr⟩] }

/-- Two bytes of a word put where the next fetch reads them. -/
def State.placeWord (s : State) (op : Word) : State :=
  s.setMem (s.mem.writeList s.PC.toNat [highByte op, lowByte op])

end Sys2Proof.Machine
end

