-- ==== Sys2Proof/Machine/Flags.lean ====
section
/-! DEFINITION. Every flag the spec computes. VF is the only flag (10_state.md rule R25); a flag is computed from
the operands alone and written to VF last (43_alu.md rule R160). -/

namespace Sys2Proof.Machine

/-- `VF <- (if b then 1 else 0)`. -/
def State.setFlag (s : State) (b : Bool) : State := s.setReg Reg.vf (if b then 1#8 else 0#8)

/-- Carry out of bit 7 of `vx + vy` (43_alu.md rule R154). -/
def carryFlag (vx vy : Byte) : Bool := decide (vx.toNat + vy.toNat > 255)

/-- No borrow in `a - b` (43_alu.md rules R155 and R157). The equal case does not borrow: the spec's choice
(92_eei_decisions.md D7; unsafe, log entry 11). -/
def notBorrowFlag (a b : Byte) : Bool := decide (a.toNat ≥ b.toNat)

/-- The bit a right shift drops, bit 0 (43_alu.md rule R156). -/
def lsbFlag (vx : Byte) : Bool := vx.getLsbD 0

/-- The bit a left shift drops, bit 7 (43_alu.md rule R158). -/
def msbFlag (vx : Byte) : Bool := vx.getLsbD 7

/-- A flag-producing operation: the result to `V[x]` first, the flag to VF second, so that with x = F the flag
stays (43_alu.md rule R160). The order is the spec's choice (92_eei_decisions.md D8; unsafe, log entry 11). -/
def State.setRegFlag (s : State) (x : Reg) (v : Byte) (flag : Bool) : State :=
  (s.setReg x v).setFlag flag

end Sys2Proof.Machine
end

