-- ==== Sys2Proof/Machine/Operands.lean ====
section
/-! DEFINITION. How operands become values: address fields, the index register, key numbers, glyph addresses,
sprite positions, decimal digits, and the exact results of the arithmetic (30_encoding.md rule R74; 43_alu.md
rule R159). -/

namespace Sys2Proof.Machine

/-- `zext_16(nnn)` (R74). -/
def zext16 (nnn : Addr) : Word := nnn.setWidth 16

/-- `I + k` as a natural number, with no wrap (20_memory.md rule R54). -/
def State.indexAddr (s : State) (k : Nat) : Nat := s.I.toNat + k

/-- `V[0]` .. `V[x]`, in order (45_key_timer_mem.md rule R199). -/
def State.regsUpTo (s : State) (x : Reg) : List Byte := s.V.toList.take (x.toNat + 1)

/-- The key a register names, if there is one (45_key_timer_mem.md rule R201). -/
def keyIndex? (v : Byte) : Option (Fin 16) :=
  if h : v.toNat < 16 then some ⟨v.toNat, h⟩ else none

/-- The BNNN target `nnn + V0` (44_index_draw.md rule R171). The sum is not cut to 12 bits: the spec's choice
(92_eei_decisions.md D4; safe, log entry 14). -/
def offsetTarget (nnn : Addr) (v0 : Byte) : Word := BitVec.ofNat 16 (nnn.toNat + v0.toNat)

/-- `FONT_BASE + v * 5`, the whole byte taken (45_key_timer_mem.md rule R197; the whole byte is the spec's
choice, 92_eei_decisions.md D5; unsafe, log entry 14). -/
def glyphAddr (v : Byte) : Word := BitVec.ofNat 16 (0 + v.toNat * 5)

/-- `(i + v) mod 2^16` (45_key_timer_mem.md rule R196). -/
def indexSum (i : Word) (v : Byte) : Word := BitVec.ofNat 16 (i.toNat + v.toNat)

/-- The hundreds, tens and ones of a byte (45_key_timer_mem.md rule R198). -/
def decimalDigits (v : Byte) : List Byte :=
  [BitVec.ofNat 8 (v.toNat / 100), BitVec.ofNat 8 (v.toNat / 10 % 10), BitVec.ofNat 8 (v.toNat % 10)]

/-- The column a sprite starts at (44_index_draw.md rule R174). -/
def startColumn (v : Byte) : Nat := v.toNat % 64

/-- The row a sprite starts at (44_index_draw.md rule R174). -/
def startRow (v : Byte) : Nat := v.toNat % 32

/-- `(a + b) mod 2^8` (43_alu.md rule R154; 42_skip_imm.md rule R134). -/
def sum8 (a b : Byte) : Byte := BitVec.ofNat 8 (a.toNat + b.toNat)

/-- `(a + 256 - b) mod 2^8` (43_alu.md rules R155 and R157). -/
def diff8 (a b : Byte) : Byte := BitVec.ofNat 8 (a.toNat + 256 - b.toNat)

end Sys2Proof.Machine
end

