-- ==== Sys2Proof/Machine/Alu.lean ====
section
/-! DEFINITION. The register ALU family (43_alu.md): both operands are read before anything is written (R160). -/

namespace Sys2Proof.Machine

/-- 8XY0, R150: `V[x] <- V[y]`. -/
def execLdReg (x y : Reg) (s : State) : Result := .next (s.setReg x (s.reg y))

/-- 8XY1, R151: `V[x] <- V[x] | V[y]`; VF is written only as destination (R160, log entry 11). -/
def execOrReg (x y : Reg) (s : State) : Result := .next (s.setReg x (s.reg x ||| s.reg y))

/-- 8XY2, R152: `V[x] <- V[x] & V[y]`; VF is written only as destination (R160, log entry 11). -/
def execAndReg (x y : Reg) (s : State) : Result := .next (s.setReg x (s.reg x &&& s.reg y))

/-- 8XY3, R153: `V[x] <- V[x] ^ V[y]`; VF is written only as destination (R160, log entry 11). -/
def execXorReg (x y : Reg) (s : State) : Result := .next (s.setReg x (s.reg x ^^^ s.reg y))

/-- 8XY4, R154: the sum to `V[x]`, the carry to VF. -/
def execAddReg (x y : Reg) (s : State) : Result :=
  .next (s.setRegFlag x (sum8 (s.reg x) (s.reg y)) (carryFlag (s.reg x) (s.reg y)))

/-- 8XY5, R155: `V[x] - V[y]` to `V[x]`, not-borrow to VF. -/
def execSub (x y : Reg) (s : State) : Result :=
  .next (s.setRegFlag x (diff8 (s.reg x) (s.reg y)) (notBorrowFlag (s.reg x) (s.reg y)))

/-- 8XY6, R156: `V[x] >> 1` to `V[x]`, the bit shifted out to VF. The source operand is `V[x]`: the spec's choice
(92_eei_decisions.md D6; unsafe, log entry 11). -/
def execShr (x _y : Reg) (s : State) : Result :=
  .next (s.setRegFlag x (s.reg x >>> 1) (lsbFlag (s.reg x)))

/-- 8XY7, R157: `V[y] - V[x]` to `V[x]`, not-borrow to VF. -/
def execSubn (x y : Reg) (s : State) : Result :=
  .next (s.setRegFlag x (diff8 (s.reg y) (s.reg x)) (notBorrowFlag (s.reg y) (s.reg x)))

/-- 8XYE, R158: `V[x] << 1` to `V[x]`, the bit shifted out to VF. The source operand is `V[x]`: the spec's choice
(92_eei_decisions.md D6; unsafe, log entry 11). -/
def execShl (x _y : Reg) (s : State) : Result :=
  .next (s.setRegFlag x (s.reg x <<< 1) (msbFlag (s.reg x)))

end Sys2Proof.Machine
end

