-- ==== Sys2Proof/Machine/Flow.lean ====
section
/-! DEFINITION. System, jump and call opcodes (41_flow.md). A meaning starts where the fetch phase ends: `cur` is
the word and `PC = a + 2` (40_cycle.md rule R92). -/

namespace Sys2Proof.Machine

/-- 0NNN, R110: a no-op; the address is ignored. -/
def execSys (_nnn : Addr) (s : State) : Result := .next s

/-- 00E0, R111: all 2048 pixels off. -/
def execCls (s : State) : Result := .next (s.setFb clearFb)

/-- 00EE, R112: `PC <-` the popped entry; an empty stack halts. -/
def execRet (s : State) : Result :=
  match s.pop? with
  | none => raiseHalt .stackUnderflow s
  | some (v, t) => .next (t.setPC v)

/-- 1NNN, R113: `PC <- zext_16(nnn)`. -/
def execJp (nnn : Addr) (s : State) : Result := .next (s.setPC (zext16 nnn))

/-- 2NNN, R114: push the advanced PC and jump; a full stack halts before anything is pushed. -/
def execCall (nnn : Addr) (s : State) : Result :=
  match s.push? s.PC with
  | none => raiseHalt .stackOverflow s
  | some t => .next (t.setPC (zext16 nnn))

end Sys2Proof.Machine
end

