-- ==== Sys2Proof/Machine/IndexDraw.lean ====
section
/-! DEFINITION. Index, offset jump, random and draw (44_index_draw.md). -/

namespace Sys2Proof.Machine

/-- ANNN, R170: `I <- zext_16(nnn)`. -/
def execLdI (nnn : Addr) (s : State) : Result := .next (s.setI (zext16 nnn))

/-- BNNN, R171: `PC <- nnn + V[0]`. -/
def execJpV0 (nnn : Addr) (s : State) : Result := .next (s.setPC (offsetTarget nnn (s.reg 0#4)))

/-- CXNN, R173: `V[x] <- r & kk`, with `r` the next random byte (R172, log entry 1). -/
def execRnd (x : Reg) (kk : Byte) (s : State) : Result :=
  .next ((s.setReg x (Config.randomByte s.draws &&& kk)).nextDraw)

/-- The framebuffer and the collision flag of DXYN: `n` rows of the sprite at `I`, drawn from the position the
old values of `V[x]` and `V[y]` name (R174). -/
def State.draw (s : State) (x y : Reg) (n : Nibble) : Framebuffer × Bool :=
  drawRows (startColumn (s.reg x)) (startRow (s.reg y)) (s.mem.readList (s.indexAddr 0) n.toNat) (s.fb, false)

/-- DXYN, R174: draw by XOR and report a collision in VF. All `n` sprite bytes are range checked, also rows that
are clipped, and with `n = 0` nothing is read (92_eei_decisions.md D3 and D14, log entries 9 and 12). -/
def execDrw (x y : Reg) (n : Nibble) (s : State) : Result :=
  if n = 0#4 then .next (s.setFlag false)
  else checkRange (s.indexAddr (n.toNat - 1)) s
    (.next ((s.setFb (s.draw x y n).1).setFlag (s.draw x y n).2))

end Sys2Proof.Machine
end

