-- ==== Sys2Proof/Machine/KeyTimerMem.lean ====
section
/-! DEFINITION. Key, timer, index and memory opcodes (45_key_timer_mem.md). -/

namespace Sys2Proof.Machine

/-- EX9E, R190: skip if the key numbered `V[x]` is down; a number above 15 halts (R201, log entry 15). -/
def execSkp (x : Reg) (s : State) : Result :=
  match keyIndex? (s.reg x) with
  | none => raiseHalt .keyRange s
  | some k => .next (s.skipIf s.key[k])

/-- EXA1, R191: skip if the key numbered `V[x]` is up; a number above 15 halts (R201, log entry 15). -/
def execSknp (x : Reg) (s : State) : Result :=
  match keyIndex? (s.reg x) with
  | none => raiseHalt .keyRange s
  | some k => .next (s.skipIf (!s.key[k]))

/-- FX07, R192: `V[x] <- DT`. -/
def execLdVxDt (x : Reg) (s : State) : Result := .next (s.setReg x s.DT)

/-- FX0A, R193: the lowest key that is down to `V[x]`; with no key down the word runs again. -/
def execLdVxK (x : Reg) (s : State) : Result :=
  match s.lowestKey? with
  | none => .next (s.setPC (s.PC - 2#16))
  | some k => .next (s.setReg x (BitVec.ofNat 8 k))

/-- FX15, R194: `DT <- V[x]`. -/
def execLdDtVx (x : Reg) (s : State) : Result := .next (s.setDT (s.reg x))

/-- FX18, R195: `ST <- V[x]`. -/
def execLdStVx (x : Reg) (s : State) : Result := .next (s.setST (s.reg x))

/-- FX1E, R196: `I <- (I + V[x]) mod 2^16`, no flag. -/
def execAddIVx (x : Reg) (s : State) : Result := .next (s.setI (indexSum s.I (s.reg x)))

/-- FX29, R197: `I <-` the address of the glyph of `V[x]`. -/
def execLdFVx (x : Reg) (s : State) : Result := .next (s.setI (glyphAddr (s.reg x)))

/-- FX33, R198: the decimal digits of `V[x]` to `I`, `I + 1`, `I + 2`. -/
def execLdBVx (x : Reg) (s : State) : Result :=
  checkRange (s.indexAddr 2) s
    (.next (s.setMem (s.mem.writeList (s.indexAddr 0) (decimalDigits (s.reg x)))))

/-- FX55, R199: `V[0]` .. `V[x]` to memory from `I`; `I` does not change (92_eei_decisions.md D15, log entry 13). -/
def execLdMemVx (x : Reg) (s : State) : Result :=
  checkRange (s.indexAddr x.toNat) s
    (.next (s.setMem (s.mem.writeList (s.indexAddr 0) (s.regsUpTo x))))

/-- FX65, R200: memory from `I` to `V[0]` .. `V[x]`; `I` does not change (92_eei_decisions.md D15, log entry 13). -/
def execLdVxMem (x : Reg) (s : State) : Result :=
  checkRange (s.indexAddr x.toNat) s
    (.next (s.setRegs (s.mem.readList (s.indexAddr 0) (x.toNat + 1))))

end Sys2Proof.Machine
end

