-- ==== Sys2Proof/Machine/SkipImm.lean ====
section
/-! DEFINITION. Skips and immediate opcodes (42_skip_imm.md). -/

namespace Sys2Proof.Machine

/-- 3XNN, R130: skip if `V[x] = kk`. -/
def execSeImm (x : Reg) (kk : Byte) (s : State) : Result := .next (s.skipIf (s.reg x == kk))

/-- 4XNN, R131: skip if `V[x] != kk`. -/
def execSneImm (x : Reg) (kk : Byte) (s : State) : Result := .next (s.skipIf (s.reg x != kk))

/-- 5XYn, R132: skip if `V[x] = V[y]`; the low nibble is not examined (R80, log entry 10). -/
def execSeReg (x y : Reg) (_n : Nibble) (s : State) : Result := .next (s.skipIf (s.reg x == s.reg y))

/-- 6XNN, R133: `V[x] <- kk`. -/
def execLdImm (x : Reg) (kk : Byte) (s : State) : Result := .next (s.setReg x kk)

/-- 7XNN, R134: `V[x] <- (V[x] + kk) mod 2^8`, no flag. -/
def execAddImm (x : Reg) (kk : Byte) (s : State) : Result := .next (s.setReg x (sum8 (s.reg x) kk))

/-- 9XYn, R135: skip if `V[x] != V[y]`; the low nibble is not examined (R80, log entry 10). -/
def execSneReg (x y : Reg) (_n : Nibble) (s : State) : Result := .next (s.skipIf (s.reg x != s.reg y))

end Sys2Proof.Machine
end

