-- ==== Sys2Proof/Machine/HostOps.lean ====
section
/-! DEFINITION. What the host does to the block between steps (60_exceptions.md section 3): creating the machine,
the timer ticks, the keypad, run control, and the outputs it reads. -/

namespace Sys2Proof.Machine

/-- Why no machine is created (70_reset_and_hazards.md rule R252). -/
inductive LoadError where
  | romTooLarge
deriving DecidableEq, Repr

/-- `create(rom)`: the font at 0, the ROM at 512, every other byte 0 and every other field at its reset value
(70_reset_and_hazards.md rule R250); more than 3584 bytes are rejected (R252). -/
def create (cfg : Config) (rom : List Byte) : Except LoadError State :=
  if rom.length > 3584 then .error .romTooLarge
  else .ok { State.reset with
    mem := (Memory.writeList [] 0 cfg.font.toList).writeList 512 rom
    haltOnUnknown := cfg.haltOnUnknown }

/-- The host operations that act on an existing machine, other than `step` (R230). -/
inductive HostOp where
  | tickDelay
  | tickSound
  | setKey (k : Fin 16) (b : Bool)
  | pause
  | resume
  | quit
deriving DecidableEq, Repr

/-- In which run states the host may call an operation (R230). -/
def HostOp.allowed : HostOp → RunState → Bool
  | .tickDelay, _ => true
  | .tickSound, _ => true
  | .setKey _ _, _ => true
  | .pause, r => r == .running
  | .resume, r => r == .paused
  | .quit, r => r == .running || r == .paused

/-- A saturating decrement (R232). -/
def satDec (v : Byte) : Byte := if v > 0#8 then v - 1#8 else v

/-- What an allowed operation does (R230, R232, R234, R235). A quit emits no diagnostic. -/
def HostOp.effect : HostOp → State → State
  | .tickDelay, s => s.setDT (satDec s.DT)
  | .tickSound, s => s.setST (satDec s.ST)
  | .setKey k b, s => { s with key := s.key.set k b }
  | .pause, s => { s with runState := .paused }
  | .resume, s => { s with runState := .running }
  | .quit, s => { s with runState := .halted, haltInfo := some ⟨.quit, none, s.PC⟩ }

/-- A host operation, or the fault that the host must not call it now (R230, R231). -/
def hostStep (op : HostOp) (s : State) : Result :=
  if op.allowed s.runState then .next (op.effect s) else .fault .hostOpNotAllowed

/-- The sound output, `ST > 0` (10_state.md rule R31; 60_exceptions.md rule R236). -/
def State.soundActive (s : State) : Bool := decide (s.ST > 0#8)

/-- Pixel `p` of the framebuffer as the renderer reads it (10_state.md rule R33); past the grid there is none. -/
def State.pixel? (s : State) (p : Nat) : Option Bool := s.fb[p]?

/-- Key flag `k` (10_state.md rule R32). -/
def State.keyDown (s : State) (k : Fin 16) : Bool := s.key[k]

/-- The code of a halt reason (R221; the numbering is the spec's, 92_eei_decisions.md D20). -/
def HaltReason.code : HaltReason → Nat
  | .unknownOpcode => 1
  | .stackOverflow => 2
  | .stackUnderflow => 3
  | .fetchRange => 4
  | .memRange => 5
  | .keyRange => 6
  | .quit => 7

end Sys2Proof.Machine
end

