-- ==== Sys2Proof/Machine/Step.lean ====
section
/-! DEFINITION. One step of the machine (40_cycle.md rule R100), and the machine with its host: every
interleaving of steps and host operations (60_exceptions.md rule R231). -/

namespace Sys2Proof.Machine

/-- Gate, fetch, decode, then the handler or the unknown-opcode policy. -/
def step (s : State) : Host.Outcome State Fault Refusal :=
  match stepGate s with
  | some f => .fault f
  | none =>
    match fetchWord s with
    | none => .next (fetchRangeHalt s)
    | some op =>
      match decode op with
      | .ok i => exec i (s.fetched op)
      | .error _ => .next (unknownOpcode (s.fetched op))

/-- The machine with an instruction stored where the next step fetches, its bits numbered as
spec/opcode_table.json numbers them. -/
def State.withFetchWord (s : State) (nbits w : Nat) : State := s.placeWord (tableWord nbits w)

/-- What happens next: a step, or a host operation between two steps (R231). -/
inductive Event where
  | step
  | host (op : HostOp)
deriving DecidableEq, Repr

/-- One event. -/
def transition : Event → State → Result
  | .step, s => step s
  | .host op, s => hostStep op s

/-- A schedule of events, ended by the first one that gives no next state. -/
def runEvents : List Event → State → Result
  | [], s => .next s
  | e :: es, s =>
    match transition e s with
    | .next t => runEvents es t
    | .fault f => .fault f
    | .refused r => .refused r

end Sys2Proof.Machine
end

