-- ==== Sys2Proof/Safety.lean ====
section
/-! DEFINITION. The terms claims are stated in: what an instruction may change (10_state.md rules R24 and R28;
20_memory.md rule R55), when one halts (60_exceptions.md rule R221), which pixels a sprite covers
(44_index_draw.md rules R174 and R175), the invariant, and what a safe run is. -/

namespace Sys2Proof.Machine

/-! ### Frames: `t` is `s` but for what the name says -/

/-- Every byte of memory reads in `t` as in `s`. -/
def SameBytes (s t : State) : Prop := ∀ a, t.readByte a = s.readByte a

/-- Nothing but the program counter differs. -/
def OnlyPC (s t : State) : Prop := t = { s with PC := t.PC } ∧ SameBytes s t

/-- Nothing but the index register differs. -/
def OnlyI (s t : State) : Prop := t = { s with I := t.I } ∧ SameBytes s t

/-- Nothing but general registers of `w` differs. -/
def OnlyRegs (w : Reg → Prop) (s t : State) : Prop :=
  t = { s with V := t.V } ∧ (∀ r, ¬ w r → t.reg r = s.reg r) ∧ SameBytes s t

/-- Nothing but memory differs, and there only bytes at `lo` to `hi`. -/
def OnlyBytes (lo hi : Nat) (s t : State) : Prop :=
  t = { s with mem := t.mem } ∧ ∀ a, ¬ (lo ≤ a ∧ a ≤ hi) → t.readByte a = s.readByte a

/-- `exec` answers the state of a halt with this reason: the record names the word and its fetch address
`PC - 2`, one diagnostic is emitted, and nothing else changes (60_exceptions.md rule R222). That the record holds the
fetch address is the spec's choice (92_eei_decisions.md D11); `PC - 2` is DEDUCED (log entry 17). -/
def HaltsWith (i : Instr) (s : State) (r : HaltReason) : Prop :=
  exec i s = .next { s with
    runState := .halted
    haltInfo := some ⟨r, some s.cur, s.PC - 2#16⟩
    diags := s.diags ++ [⟨r, some s.cur, s.PC - 2#16⟩] }

/-! ### The spec's tables -/

/-- The halt condition of an instruction, checked in the state the fetch phase leaves (60_exceptions.md rule
R221): the one reason it can halt for, when it does. -/
def haltCause (i : Instr) (s : State) : Option HaltReason :=
  match i with
  | .ret => if s.SP.val = 0 then some .stackUnderflow else none
  | .call _ => if s.SP.val = 12 then some .stackOverflow else none
  | .drw _ _ n => if 0 < n.toNat ∧ s.I.toNat + n.toNat - 1 > 4095 then some .memRange else none
  | .skp x | .sknp x => if (s.reg x).toNat > 15 then some .keyRange else none
  | .ldBVx _ => if s.I.toNat + 2 > 4095 then some .memRange else none
  | .ldMemVx x | .ldVxMem x => if s.I.toNat + x.toNat > 4095 then some .memRange else none
  | .sys _ | .cls | .jp _ | .seImm _ _ | .sneImm _ _ | .seReg _ _ _ | .ldImm _ _ | .addImm _ _ | .ldReg _ _
  | .orReg _ _ | .andReg _ _ | .xorReg _ _ | .addReg _ _ | .sub _ _ | .shr _ _ | .subn _ _ | .shl _ _
  | .sneReg _ _ _ | .ldI _ | .jpV0 _ | .rnd _ _ | .ldVxDt _ | .ldVxK _ | .ldDtVx _ | .ldStVx _ | .addIVx _
  | .ldFVx _ => none

/-- Is register `r` in the instruction's column "writes" (10_state.md rule R24)? -/
def mayWriteReg (i : Instr) (r : Reg) : Prop :=
  match i with
  | .ldImm x _ | .addImm x _ | .ldReg x _ | .orReg x _ | .andReg x _ | .xorReg x _ | .rnd x _ | .ldVxDt x
  | .ldVxK x => r = x
  | .addReg x _ | .sub x _ | .shr x _ | .subn x _ | .shl x _ => r = x ∨ r = Reg.vf
  | .drw _ _ _ => r = Reg.vf
  | .ldVxMem x => r.toNat ≤ x.toNat
  | .sys _ | .cls | .ret | .jp _ | .call _ | .seImm _ _ | .sneImm _ _ | .seReg _ _ _ | .sneReg _ _ _ | .ldI _
  | .jpV0 _ | .skp _ | .sknp _ | .ldDtVx _ | .ldStVx _ | .addIVx _ | .ldFVx _ | .ldBVx _ | .ldMemVx _ => False

/-- May the instruction write the byte at address `a` (20_memory.md rule R55)? -/
def mayStore (i : Instr) (s : State) (a : Nat) : Prop :=
  match i with
  | .ldBVx _ => s.I.toNat ≤ a ∧ a ≤ s.I.toNat + 2
  | .ldMemVx x => s.I.toNat ≤ a ∧ a ≤ s.I.toNat + x.toNat
  | .sys _ | .cls | .ret | .jp _ | .call _ | .seImm _ _ | .sneImm _ _ | .seReg _ _ _ | .ldImm _ _ | .addImm _ _
  | .ldReg _ _ | .orReg _ _ | .andReg _ _ | .xorReg _ _ | .addReg _ _ | .sub _ _ | .shr _ _ | .subn _ _
  | .shl _ _ | .sneReg _ _ _ | .ldI _ | .jpV0 _ | .rnd _ _ | .drw _ _ _ | .skp _ | .sknp _ | .ldVxDt _
  | .ldVxK _ | .ldDtVx _ | .ldStVx _ | .addIVx _ | .ldFVx _ | .ldVxMem _ => False

/-- Where PC stands after an instruction fetched at `a` that does not halt (10_state.md rule R28). -/
def pcAfter (i : Instr) (a : Word) (s : State) : Word :=
  match i with
  | .jp nnn | .call nnn => BitVec.ofNat 16 nnn.toNat
  | .ret => s.stack[s.SP.val - 1]?.getD 0
  | .jpV0 nnn => BitVec.ofNat 16 (nnn.toNat + (s.reg 0#4).toNat)
  | .seImm x kk => if s.reg x = kk then a + 4#16 else a + 2#16
  | .sneImm x kk => if s.reg x ≠ kk then a + 4#16 else a + 2#16
  | .seReg x y _ => if s.reg x = s.reg y then a + 4#16 else a + 2#16
  | .sneReg x y _ => if s.reg x ≠ s.reg y then a + 4#16 else a + 2#16
  | .skp x => if s.key[(s.reg x).toNat]? = some true then a + 4#16 else a + 2#16
  | .sknp x => if s.key[(s.reg x).toNat]? = some false then a + 4#16 else a + 2#16
  | .ldVxK _ => if ∀ k : Fin 16, s.keyDown k = false then a else a + 2#16
  | .sys _ | .cls | .ldImm _ _ | .addImm _ _ | .ldReg _ _ | .orReg _ _ | .andReg _ _ | .xorReg _ _ | .addReg _ _
  | .sub _ _ | .shr _ _ | .subn _ _ | .shl _ _ | .ldI _ | .rnd _ _ | .drw _ _ _ | .ldVxDt _ | .ldDtVx _
  | .ldStVx _ | .addIVx _ | .ldFVx _ | .ldBVx _ | .ldMemVx _ | .ldVxMem _ => a + 2#16

/-! ### Sprites -/

/-- Does the `n`-row sprite at `I`, drawn from column `V[x] mod 64` and row `V[y] mod 32`, have a set bit at pixel
`p`? Bit 7 of a row is its leftmost column (R175). A position outside the frame is no pixel: the sprite is
clipped, not wrapped (R174). -/
def State.spriteAt (s : State) (x y : Reg) (n : Nibble) (p : Nat) : Bool :=
  decide ((s.reg x).toNat % 64 ≤ p % 64 ∧ p % 64 < (s.reg x).toNat % 64 + 8 ∧
      (s.reg y).toNat % 32 ≤ p / 64 ∧ p / 64 < (s.reg y).toNat % 32 + n.toNat) &&
    (s.readByte (s.I.toNat + (p / 64 - (s.reg y).toNat % 32))).getLsbD (7 - (p % 64 - (s.reg x).toNat % 64))

/-- Is a pixel on where the sprite has one? -/
def State.spriteHits (s : State) (x y : Reg) (n : Nibble) : Prop :=
  ∃ p, p < 2048 ∧ s.fb[p]? = some true ∧ s.spriteAt x y n p = true

/-! ### Invariant and safe runs -/

/-- What every state that a run from `create` reaches satisfies. -/
structure State.Inv (s : State) : Prop where
  /-- Memory is in canonical form (the model's own representation). -/
  memory : s.mem.wf
  /-- PC never passes the largest BNNN target (10_state.md rule R29). -/
  pc : s.PC.toNat ≤ 0x10FE
  /-- Every live stack entry is a return address `a + 2` with `a <= 4094` (41_flow.md rule R112). -/
  returns : ∀ k v, k < s.SP.val → s.stack[k]? = some v → 2 ≤ v.toNat ∧ v.toNat ≤ 4096
  /-- There is a halt record exactly in Halted (10_state.md rule R36). -/
  record : s.runState = .halted ↔ s.haltInfo ≠ none

/-- A run is safe while the machine has not halted for one of the reasons a step raises (60_exceptions.md rule
R221, codes 1 to 6): it is Running or Paused, or the host quit. -/
def State.Safe (s : State) : Prop :=
  s.runState ≠ .halted ∨ ∃ h, s.haltInfo = some h ∧ h.reason = .quit

end Sys2Proof.Machine
end

