-- ==== Sys2Proof/Certificates/Slice0/Obligations.lean ====
section
/-! DEFINITION. The statements for the provers. A statement about a handler is about `exec` in any state: there
`cur` is the word and PC stands two bytes past it (40_cycle.md rule R92), so `s.PC` reads a + 2 and `s.PC - 2#16`
reads a. Each instruction statement begins with the instruction's encoding. -/

open Sys2Proof Sys2Proof.Machine

/-! ### Words, fields, dispatch -/

/-- R93: the six fields of a word are the numbers its bits spell. -/
def Obligations.WordFieldsAreItsBits : Prop :=
  ∀ op : Word,
    (opHi op).toNat = op.toNat / 2 ^ 12 ∧
    (opNnn op).toNat = op.toNat % 2 ^ 12 ∧
    (opX op).toNat = op.toNat / 2 ^ 8 % 2 ^ 4 ∧
    (opY op).toNat = op.toNat / 2 ^ 4 % 2 ^ 4 ∧
    (opKk op).toNat = op.toNat % 2 ^ 8 ∧
    (opN op).toNat = op.toNat % 2 ^ 4

/-- R76, R77, R78, R79: the secondary dispatch of families 0, 8, E and F, and R77's own test case: a running
machine that fetches 8XYF halts (with `HALT_ON_UNKNOWN`, R95). -/
def Obligations.SecondaryDispatch : Prop :=
  (∀ op : Word,
    (opHi op = 0x0#4 → decode op =
      .ok (if op = 0x00E0#16 then .cls else if op = 0x00EE#16 then .ret else .sys (opNnn op))) ∧
    (opHi op = 0x8#4 → opN op = 0x0#4 → decode op = .ok (.ldReg (opX op) (opY op))) ∧
    (opHi op = 0x8#4 → opN op = 0x1#4 → decode op = .ok (.orReg (opX op) (opY op))) ∧
    (opHi op = 0x8#4 → opN op = 0x2#4 → decode op = .ok (.andReg (opX op) (opY op))) ∧
    (opHi op = 0x8#4 → opN op = 0x3#4 → decode op = .ok (.xorReg (opX op) (opY op))) ∧
    (opHi op = 0x8#4 → opN op = 0x4#4 → decode op = .ok (.addReg (opX op) (opY op))) ∧
    (opHi op = 0x8#4 → opN op = 0x5#4 → decode op = .ok (.sub (opX op) (opY op))) ∧
    (opHi op = 0x8#4 → opN op = 0x6#4 → decode op = .ok (.shr (opX op) (opY op))) ∧
    (opHi op = 0x8#4 → opN op = 0x7#4 → decode op = .ok (.subn (opX op) (opY op))) ∧
    (opHi op = 0x8#4 → opN op = 0xE#4 → decode op = .ok (.shl (opX op) (opY op))) ∧
    (opHi op = 0x8#4 → opN op ∈ [0x8#4, 0x9#4, 0xA#4, 0xB#4, 0xC#4, 0xD#4, 0xF#4] → decode op = .error (.unknownAlu op)) ∧
    (opHi op = 0xE#4 → opKk op = 0x9E#8 → decode op = .ok (.skp (opX op))) ∧
    (opHi op = 0xE#4 → opKk op = 0xA1#8 → decode op = .ok (.sknp (opX op))) ∧
    (opHi op = 0xE#4 → opKk op ∉ [0x9E#8, 0xA1#8] → decode op = .error (.unknownKey op)) ∧
    (opHi op = 0xF#4 → opKk op = 0x07#8 → decode op = .ok (.ldVxDt (opX op))) ∧
    (opHi op = 0xF#4 → opKk op = 0x0A#8 → decode op = .ok (.ldVxK (opX op))) ∧
    (opHi op = 0xF#4 → opKk op = 0x15#8 → decode op = .ok (.ldDtVx (opX op))) ∧
    (opHi op = 0xF#4 → opKk op = 0x18#8 → decode op = .ok (.ldStVx (opX op))) ∧
    (opHi op = 0xF#4 → opKk op = 0x1E#8 → decode op = .ok (.addIVx (opX op))) ∧
    (opHi op = 0xF#4 → opKk op = 0x29#8 → decode op = .ok (.ldFVx (opX op))) ∧
    (opHi op = 0xF#4 → opKk op = 0x33#8 → decode op = .ok (.ldBVx (opX op))) ∧
    (opHi op = 0xF#4 → opKk op = 0x55#8 → decode op = .ok (.ldMemVx (opX op))) ∧
    (opHi op = 0xF#4 → opKk op = 0x65#8 → decode op = .ok (.ldVxMem (opX op))) ∧
    (opHi op = 0xF#4 → opKk op ∉ [0x07#8, 0x0A#8, 0x15#8, 0x18#8, 0x1E#8, 0x29#8, 0x33#8, 0x55#8, 0x65#8] →
      decode op = .error (.unknownMisc op))) ∧
  ∀ (s : State) (op : Word), s.runState = .running → s.haltOnUnknown = true → fetchWord s = some op →
    opHi op = 0x8#4 → opN op = 0xF#4 → ∃ t, step s = .next t ∧ t.runState = .halted

/-- The twelve families without a secondary dispatch select on the top nibble alone. For families 5 and 9 this is the
spec's own choice (92_eei_decisions.md D10, log entry 10): their low nibble is an operand nothing examines. -/
def Obligations.SingleOpcodeFamilies : Prop :=
  ∀ op : Word,
    (opHi op = 0x1#4 → decode op = .ok (.jp (opNnn op))) ∧
    (opHi op = 0x2#4 → decode op = .ok (.call (opNnn op))) ∧
    (opHi op = 0x3#4 → decode op = .ok (.seImm (opX op) (opKk op))) ∧
    (opHi op = 0x4#4 → decode op = .ok (.sneImm (opX op) (opKk op))) ∧
    (opHi op = 0x5#4 → decode op = .ok (.seReg (opX op) (opY op) (opN op))) ∧
    (opHi op = 0x6#4 → decode op = .ok (.ldImm (opX op) (opKk op))) ∧
    (opHi op = 0x7#4 → decode op = .ok (.addImm (opX op) (opKk op))) ∧
    (opHi op = 0x9#4 → decode op = .ok (.sneReg (opX op) (opY op) (opN op))) ∧
    (opHi op = 0xA#4 → decode op = .ok (.ldI (opNnn op))) ∧
    (opHi op = 0xB#4 → decode op = .ok (.jpV0 (opNnn op))) ∧
    (opHi op = 0xC#4 → decode op = .ok (.rnd (opX op) (opKk op))) ∧
    (opHi op = 0xD#4 → decode op = .ok (.drw (opX op) (opY op) (opN op)))

/-- The unknown opcodes are exactly the words of families 8, E and F with a selector of no instruction (an
inference the spec draws from its dispatch rules, 30_encoding.md section 4). -/
def Obligations.UnknownWordsAreExactly : Prop :=
  ∀ op : Word, (∃ e, decode op = .error e) ↔
    ((opHi op = 0x8#4 ∧ (opN op).toNat ∈ [8, 9, 10, 11, 12, 13, 15]) ∨
      (opHi op = 0xE#4 ∧ opKk op ≠ 0x9E#8 ∧ opKk op ≠ 0xA1#8) ∨
      (opHi op = 0xF#4 ∧ ∀ kk ∈ ([0x07#8, 0x0A#8, 0x15#8, 0x18#8, 0x1E#8, 0x29#8, 0x33#8, 0x55#8, 0x65#8] : List Byte), opKk op ≠ kk))

/-- Words written out from the spec's layouts and examples, one or more for each family. -/
def Obligations.SampleWordsDecode : Prop :=
  decode 0x0123#16 = .ok (.sys 0x123) ∧ decode 0x00E0#16 = .ok .cls ∧ decode 0x00EE#16 = .ok .ret ∧
  decode 0x1234#16 = .ok (.jp 0x234) ∧ decode 0x2210#16 = .ok (.call 0x210) ∧ decode 0x3342#16 = .ok (.seImm 3 0x42) ∧
  decode 0x4342#16 = .ok (.sneImm 3 0x42) ∧ decode 0x5123#16 = .ok (.seReg 1 2 3) ∧
  decode 0x6A7B#16 = .ok (.ldImm 0xA 0x7B) ∧ decode 0x71FF#16 = .ok (.addImm 1 0xFF) ∧
  decode 0x8124#16 = .ok (.addReg 1 2) ∧ decode 0x810E#16 = .ok (.shl 1 0) ∧ decode 0x912F#16 = .ok (.sneReg 1 2 0xF) ∧
  decode 0xA300#16 = .ok (.ldI 0x300) ∧ decode 0xB300#16 = .ok (.jpV0 0x300) ∧ decode 0xC30F#16 = .ok (.rnd 3 0x0F) ∧
  decode 0xD125#16 = .ok (.drw 1 2 5) ∧ decode 0xE49E#16 = .ok (.skp 4) ∧ decode 0xF50A#16 = .ok (.ldVxK 5) ∧
  decode 0xF265#16 = .ok (.ldVxMem 2) ∧ decode 0x801F#16 = .error (.unknownAlu 0x801F#16)

/-- Decoding the word of a well-formed instruction gives the instruction back, with every operand (R70, R73). -/
def Obligations.DecodeEncodeRoundTrip : Prop :=
  ∀ i : Instr, i.wf = true →
    decode (encode i) = .ok i ∧ ∀ rest, decodeBytes (encodeBytes i ++ rest) = .ok (i, rest)

/-- A word that decodes has one meaning: its instruction is well formed and encodes to that very word. -/
def Obligations.EncodeDecodeRoundTrip : Prop :=
  ∀ (op : Word) (i : Instr), decode op = .ok i → i.wf = true ∧ encode i = op

/-! ### Memory as a data structure -/

/-- Memories in canonical form that read the same everywhere are equal data (the model's representation). -/
def Obligations.CanonicalMemoryDeterminedByReads : Prop :=
  ∀ m₁ m₂ : Memory, m₁.wf → m₂.wf → (∀ a, m₁.read a = m₂.read a) → m₁ = m₂

/-! ### The instruction cycle -/

/-- R50: the byte at the lower address is bits 15..8 of the fetched word, the next one bits 7..0. -/
def Obligations.FetchIsBigEndian : Prop :=
  ∀ s : State, s.PC.toNat ≤ 4094 → ∃ op, fetchWord s = some op ∧
    op.toNat = (s.readByte s.PC.toNat).toNat * 2 ^ 8 + (s.readByte (s.PC.toNat + 1)).toNat

/-- The step reads the word at PC, records it, advances PC by exactly 2 without a wrap, and then runs the handler
(40_cycle.md sections 2 and 4); a word without a handler is recorded and PC advanced just the same. That PC stands
there too when such a word does not halt is the spec's choice (92_eei_decisions.md D12; log entry 18). -/
def Obligations.StepRunsDecodedInstruction : Prop :=
  ∀ (s : State) (op : Word), s.runState = .running → s.PC.toNat ≤ 4094 →
    op.toNat = (s.readByte s.PC.toNat).toNat * 2 ^ 8 + (s.readByte (s.PC.toNat + 1)).toNat →
      (s.PC + 2#16).toNat = s.PC.toNat + 2 ∧
      (∀ i, decode op = .ok i → step s = exec i { s with cur := op, PC := s.PC + 2#16 }) ∧
      ∀ e, decode op = .error e → ∃ t, step s = .next t ∧ t.cur = op ∧ t.PC = s.PC + 2#16

/-- A well-formed instruction stored at PC is what the next step fetches and runs (20_memory.md rule R50;
40_cycle.md rules R92 and R94). -/
def Obligations.PlacedInstructionRunsNext : Prop :=
  ∀ (s : State) (i : Instr), s.runState = .running → s.PC.toNat ≤ 4094 → s.mem.wf → i.wf = true →
    step (s.withFetchWord 16 (encode i).toNat) =
      exec i { s.withFetchWord 16 (encode i).toNat with cur := encode i, PC := s.PC + 2#16 }

/-- A fetch past address 4095 halts with FETCH_RANGE and no opcode; nothing else changes (the spec's choice,
92_eei_decisions.md D3; log entry 9). -/
def Obligations.FetchPastEndHalts : Prop :=
  ∀ s : State, s.runState = .running → s.PC.toNat > 4094 →
    step s = .next { s with
      runState := .halted
      haltInfo := some ⟨.fetchRange, none, s.PC⟩
      diags := s.diags ++ [⟨.fetchRange, none, s.PC⟩] }

/-- An unknown word halts the machine, or with `HALT_ON_UNKNOWN = false` only emits its diagnostic; PC stands at
a + 2 and no register, byte, pixel or timer changes. The record's pc and the `false` behaviour are the spec's
choices (92_eei_decisions.md D11 and D12; log entries 17 and 18). -/
def Obligations.UnknownOpcodePolicy : Prop :=
  ∀ (s : State) (op : Word) (e : DecodeError), s.runState = .running → fetchWord s = some op →
    decode op = .error e →
      (s.haltOnUnknown = true → step s = .next { s with
        cur := op
        PC := s.PC + 2#16
        runState := .halted
        haltInfo := some ⟨.unknownOpcode, some op, s.PC⟩
        diags := s.diags ++ [⟨.unknownOpcode, some op, s.PC⟩] }) ∧
      (s.haltOnUnknown = false → step s = .next { s with
        cur := op
        PC := s.PC + 2#16
        diags := s.diags ++ [⟨.unknownOpcode, some op, s.PC⟩] })

/-- A step exists exactly in Running, and it ends in Running or in Halted, never in Paused (40_cycle.md sections 1
and 5). That there is no step in Paused and Halted is the spec's choice (92_eei_decisions.md D18); that the model
answers a named fault there is its own (log entry 6). -/
def Obligations.StepExistsExactlyWhenRunning : Prop :=
  ∀ s : State,
    (s.runState = .running → ∃ t, step s = .next t ∧ (t.runState = .running ∨ t.runState = .halted)) ∧
    (s.runState = .paused → step s = .fault .stepWhilePaused) ∧
    (s.runState = .halted → step s = .fault .stepWhileHalted)

/-- A step that halts leaves every field as the fetch phase left it except the run state and the halt record
(40_cycle.md section 5), and the emitted diagnostic, which the model keeps in a field (log entry 3). Where the fetch
itself halts there was no fetch phase, and `cur` and PC keep their values: that halt is the spec's choice (40_cycle.md
section 2; 92_eei_decisions.md D3; log entry 9). -/
def Obligations.HaltingStepIsAllOrNothing : Prop :=
  ∀ s t : State, step s = .next t → t.runState = .halted →
    (s.PC.toNat > 4094 → t = { s with runState := .halted, haltInfo := t.haltInfo, diags := t.diags }) ∧
    (s.PC.toNat ≤ 4094 → ∃ op, fetchWord s = some op ∧
      t = { s with cur := op, PC := s.PC + 2#16, runState := .halted, haltInfo := t.haltInfo, diags := t.diags })

/-- A step emits at most one diagnostic, and one when it halts, equal to the halt record (the spec's choice,
92_eei_decisions.md D11; the list is the model's own, log entry 3). -/
def Obligations.AtMostOneDiagnosticPerStep : Prop :=
  ∀ s t : State, step s = .next t → ∃ new, t.diags = s.diags ++ new ∧ new.length ≤ 1 ∧
    (t.runState = .halted → new = t.haltInfo.toList)

/-- Every instruction completes, unless its one halt condition holds, and then it halts for that reason with none
of its own writes. The table of halt reasons is 60_exceptions.md section 1; its range checks and the record's
form are the spec's choices (92_eei_decisions.md D3, D11 and D13; log entries 9, 15 and 17). -/
def Obligations.HaltsExactlyOnTheListedCauses : Prop :=
  ∀ (i : Instr) (s : State),
    (haltCause i s = none → ∃ t, exec i s = .next t ∧
      t.runState = s.runState ∧ t.haltInfo = s.haltInfo ∧ t.diags = s.diags) ∧
    (∀ r, haltCause i s = some r → HaltsWith i s r)

/-! ### What instructions in general may change -/

/-- Where PC stands after each opcode, `a` the fetch address; after a halt at `a + 2`, or at `a` when the fetch itself
halted (the table of 10_state.md section 5). The spec's choices in it (92_eei_decisions.md): BNNN is not masked (D4,
log entry 14), 5XYn and 9XYn skip for every n (D10, entry 10), FX0A takes the level of the keys (D28, entry 16), a
fetch past 4095 halts (D3, entry 9), the halts on a memory range (D3, entry 9) and on a key number (D13, entry 15),
and an unknown word leaves `a + 2` also where it does not halt (D12, entry 18). -/
def Obligations.PcAfterEveryOpcode : Prop :=
  (∀ (i : Instr) (a : Word) (s t : State), s.PC = a + 2#16 → exec i s = .next t →
    t.PC = if haltCause i s = none then pcAfter i a s else a + 2#16) ∧
  (∀ (s t : State) (op : Word) (e : DecodeError), fetchWord s = some op → decode op = .error e → step s = .next t →
    t.PC = s.PC + 2#16) ∧
  ∀ s t : State, s.PC.toNat > 4094 → step s = .next t → t.PC = s.PC

/-- The register access table: a general register outside the instruction's column "writes" keeps its value
(10_state.md section 2, which the spec derives from the instruction rules). -/
def Obligations.OnlyListedRegistersAreWritten : Prop :=
  ∀ (i : Instr) (s t : State) (r : Reg), exec i s = .next t → ¬ mayWriteReg i r → t.reg r = s.reg r

/-- The memory access table: FX33 and FX55 write their ranges and no instruction writes another byte
(20_memory.md section 4). -/
def Obligations.OnlyStoresWriteMemory : Prop :=
  ∀ (i : Instr) (s t : State) (a : Nat), exec i s = .next t → ¬ mayStore i s a → t.readByte a = s.readByte a

/-- Which instruction may change which other piece of state: I by ANNN, FX1E and FX29; the call stack by 2NNN and
00EE; the framebuffer by 00E0 and DXYN; DT by FX15; ST by FX18; the keypad flags, `HALT_ON_UNKNOWN` and `cur` by
none; the run state, the halt record and the diagnostics only where the instruction's halt condition holds, and then
the machine is Halted (10_state.md sections 4, 6 to 9, 11 and 12; 60_exceptions.md section 1). That FX55 and FX65
leave I alone and the range and key halts are the spec's choices (92_eei_decisions.md D15, D3 and D13; log entries 13,
9 and 15). The draw counter and the list of diagnostics are the model's own (log entries 1 and 3). -/
def Obligations.OtherStateChangesOnlyByItsInstructions : Prop :=
  ∀ (i : Instr) (s t : State), exec i s = .next t →
    t.key = s.key ∧ t.haltOnUnknown = s.haltOnUnknown ∧ t.cur = s.cur ∧
    (t.I ≠ s.I → (∃ nnn, i = .ldI nnn) ∨ (∃ x, i = .addIVx x) ∨ ∃ x, i = .ldFVx x) ∧
    ((t.stack ≠ s.stack ∨ t.SP ≠ s.SP) → i = .ret ∨ ∃ nnn, i = .call nnn) ∧
    (t.fb ≠ s.fb → i = .cls ∨ ∃ x y n, i = .drw x y n) ∧
    (t.DT ≠ s.DT → ∃ x, i = .ldDtVx x) ∧
    (t.ST ≠ s.ST → ∃ x, i = .ldStVx x) ∧
    (t.draws ≠ s.draws → ∃ x kk, i = .rnd x kk) ∧
    ((t.runState ≠ s.runState ∨ t.haltInfo ≠ s.haltInfo ∨ t.diags ≠ s.diags) →
      haltCause i s ≠ none ∧ t.runState = .halted)

/-- ST is read by no instruction: two states that differ in ST alone give answers that differ in ST alone, and
FX18 makes them equal (10_state.md section 7). -/
def Obligations.SoundTimerIsReadByNoInstruction : Prop :=
  ∀ (i : Instr) (s t : State) (v : Byte), exec i s = .next t →
    exec i { s with ST := v } = .next t ∧ (∃ x, i = .ldStVx x) ∨
    exec i { s with ST := v } = .next { t with ST := v } ∧ t.ST = s.ST

/-! ### System, jump and call -/

/-- R110: a word of family 0 other than 00E0 and 00EE is a no-op, whatever `HALT_ON_UNKNOWN` is. -/
def Obligations.SysIsNoOp : Prop :=
  ∀ (nnn : Addr) (s : State),
    (nnn ≠ 0x0E0#12 → nnn ≠ 0x0EE#12 → decode (packNNN 0x0#4 nnn) = .ok (.sys nnn)) ∧
    exec (.sys nnn) s = .next s

/-- R111: 00E0 turns all 2048 pixels off and changes nothing else. -/
def Obligations.ClsClearsEveryPixel : Prop :=
  ∀ s : State, decode 0x00E0#16 = .ok .cls ∧
    ∃ t, exec .cls s = .next t ∧ (∀ p, p < 2048 → t.fb[p]? = some false) ∧
      t = { s with fb := t.fb } ∧ SameBytes s t

/-- 00EE pops the top entry into PC, and halts on an empty stack; only SP and PC change (41_flow.md). That the halt
record's pc is the fetch address is the spec's choice (92_eei_decisions.md D11), which the model reads as `PC - 2`
(log entry 17); the diagnostic is kept in the model's own list (log entry 3). -/
def Obligations.RetPopsReturnAddress : Prop :=
  ∀ s : State, decode 0x00EE#16 = .ok .ret ∧
    (0 < s.SP.val → ∃ t, exec .ret s = .next t ∧ t.SP.val + 1 = s.SP.val ∧
      s.stack[t.SP.val]? = some t.PC ∧ t = { s with SP := t.SP, PC := t.PC } ∧ SameBytes s t) ∧
    (s.SP.val = 0 → HaltsWith .ret s .stackUnderflow)

/-- R113: 1NNN sets PC to nnn, zero-extended. -/
def Obligations.JpSetsPc : Prop :=
  ∀ (nnn : Addr) (s : State), decode (packNNN 0x1#4 nnn) = .ok (.jp nnn) ∧
    ∃ t, exec (.jp nnn) s = .next t ∧ t.PC.toNat = nnn.toNat ∧ OnlyPC s t

/-- 2NNN pushes the advanced PC and jumps; with twelve entries it halts before anything is pushed; only the slot at
the old depth, SP and PC change (41_flow.md). That the halt record's pc is the fetch address is the spec's choice
(92_eei_decisions.md D11), which the model reads as `PC - 2` (log entry 17); the diagnostic is kept in the model's own
list (log entry 3). -/
def Obligations.CallPushesAndJumps : Prop :=
  ∀ (nnn : Addr) (s : State), decode (packNNN 0x2#4 nnn) = .ok (.call nnn) ∧
    (s.SP.val < 12 → ∃ t, exec (.call nnn) s = .next t ∧ t.PC.toNat = nnn.toNat ∧
      t.SP.val = s.SP.val + 1 ∧ t.stack[s.SP.val]? = some s.PC ∧
      (∀ k, k ≠ s.SP.val → t.stack[k]? = s.stack[k]?) ∧
      t = { s with stack := t.stack, SP := t.SP, PC := t.PC } ∧ SameBytes s t) ∧
    (s.SP.val = 12 → HaltsWith (.call nnn) s .stackOverflow)

/-- A 00EE after a 2NNN returns to the word after the call, at any depth up to 12, when the code in between leaves
the entries the call left on the stack (the source's property in 41_flow.md, the corner cases of 2NNN). -/
def Obligations.RetAfterCallResumes : Prop :=
  ∀ (nnn : Addr) (s t u : State), s.SP.val < 12 → exec (.call nnn) s = .next t →
    u.SP = t.SP → (∀ k, k < t.SP.val → u.stack[k]? = t.stack[k]?) →
      ∃ w, exec .ret u = .next w ∧ w.PC = s.PC ∧ w.SP = s.SP ∧
        ∀ k, k < w.SP.val → w.stack[k]? = s.stack[k]?

/-! ### Skips and immediates -/

/-- R130, R131: 3XNN skips when V[x] is kk, 4XNN when it is not; a skip is a further 2 on PC, and nothing else
changes. -/
def Obligations.SkipsOnImmediate : Prop :=
  ∀ (x : Reg) (kk : Byte) (s : State),
    decode (packXKK 0x3#4 x kk) = .ok (.seImm x kk) ∧
    decode (packXKK 0x4#4 x kk) = .ok (.sneImm x kk) ∧
    (∃ t, exec (.seImm x kk) s = .next t ∧
      t.PC = (if s.reg x = kk then s.PC + 2#16 else s.PC) ∧ OnlyPC s t) ∧
    (∃ t, exec (.sneImm x kk) s = .next t ∧
      t.PC = (if s.reg x ≠ kk then s.PC + 2#16 else s.PC) ∧ OnlyPC s t)

/-- 5XYn skips when V[x] = V[y], 9XYn when they differ, for every low nibble: that the nibble is not examined is
the spec's choice (92_eei_decisions.md D10, log entry 10). -/
def Obligations.SkipsOnRegisters : Prop :=
  ∀ (x y : Reg) (n : Nibble) (s : State),
    decode (packXYN 0x5#4 x y n) = .ok (.seReg x y n) ∧
    decode (packXYN 0x9#4 x y n) = .ok (.sneReg x y n) ∧
    (∃ t, exec (.seReg x y n) s = .next t ∧
      t.PC = (if s.reg x = s.reg y then s.PC + 2#16 else s.PC) ∧ OnlyPC s t) ∧
    (∃ t, exec (.sneReg x y n) s = .next t ∧
      t.PC = (if s.reg x ≠ s.reg y then s.PC + 2#16 else s.PC) ∧ OnlyPC s t)

/-- R133, R134: 6XNN loads a byte, 7XNN adds one modulo 2^8; no other register is written, VF only as
destination. -/
def Obligations.ImmediateLoadAndAdd : Prop :=
  ∀ (x : Reg) (kk : Byte) (s : State),
    decode (packXKK 0x6#4 x kk) = .ok (.ldImm x kk) ∧
    decode (packXKK 0x7#4 x kk) = .ok (.addImm x kk) ∧
    (∃ t, exec (.ldImm x kk) s = .next t ∧ t.reg x = kk ∧ OnlyRegs (· = x) s t) ∧
    (∃ t, exec (.addImm x kk) s = .next t ∧
      (t.reg x).toNat = ((s.reg x).toNat + kk.toNat) % 2 ^ 8 ∧ OnlyRegs (· = x) s t)

/-! ### Register ALU -/

/-- 8XY0 copies V[y] to V[x] (43_alu.md). That VF keeps its value unless it is the destination is the spec's choice
(92_eei_decisions.md D9, log entry 11). -/
def Obligations.AssignCopiesRegister : Prop :=
  ∀ (x y : Reg) (s : State), decode (packXYN 0x8#4 x y 0x0#4) = .ok (.ldReg x y) ∧
    ∃ t, exec (.ldReg x y) s = .next t ∧ t.reg x = s.reg y ∧ OnlyRegs (· = x) s t

/-- 8XY1, 8XY2 and 8XY3 write the bitwise OR, AND and XOR. That VF keeps its value unless it is the destination is
the spec's choice (92_eei_decisions.md D9, log entry 11). -/
def Obligations.BitwiseOperations : Prop :=
  ∀ (x y : Reg) (s : State),
    decode (packXYN 0x8#4 x y 0x1#4) = .ok (.orReg x y) ∧
    decode (packXYN 0x8#4 x y 0x2#4) = .ok (.andReg x y) ∧
    decode (packXYN 0x8#4 x y 0x3#4) = .ok (.xorReg x y) ∧
    (∃ t, exec (.orReg x y) s = .next t ∧ OnlyRegs (· = x) s t ∧
      ∀ b, b < 8 → (t.reg x).getLsbD b = ((s.reg x).getLsbD b || (s.reg y).getLsbD b)) ∧
    (∃ t, exec (.andReg x y) s = .next t ∧ OnlyRegs (· = x) s t ∧
      ∀ b, b < 8 → (t.reg x).getLsbD b = ((s.reg x).getLsbD b && (s.reg y).getLsbD b)) ∧
    (∃ t, exec (.xorReg x y) s = .next t ∧ OnlyRegs (· = x) s t ∧
      ∀ b, b < 8 → (t.reg x).getLsbD b = ((s.reg x).getLsbD b ^^ (s.reg y).getLsbD b))

/-- 8XY4 writes the sum modulo 2^8 and the carry. That the flag is written last, so that it stays when x = F, is the
spec's choice (92_eei_decisions.md D8, log entry 11). -/
def Obligations.AddSetsCarry : Prop :=
  ∀ (x y : Reg) (s : State), decode (packXYN 0x8#4 x y 0x4#4) = .ok (.addReg x y) ∧
    ∃ t, exec (.addReg x y) s = .next t ∧
      t.reg Reg.vf = (if (s.reg x).toNat + (s.reg y).toNat > 255 then 1#8 else 0#8) ∧
      (x ≠ Reg.vf → (t.reg x).toNat = ((s.reg x).toNat + (s.reg y).toNat) % 2 ^ 8) ∧
      OnlyRegs (fun r => r = x ∨ r = Reg.vf) s t

/-- 8XY5 and 8XY7 write a difference modulo 2^8 and not-borrow: 1 exactly when the subtraction needs no borrow. That
equal operands give 1 and that the flag is written last are the spec's choices (92_eei_decisions.md D7 and D8,
log entry 11). -/
def Obligations.SubtractSetsNotBorrow : Prop :=
  ∀ (x y : Reg) (s : State),
    decode (packXYN 0x8#4 x y 0x5#4) = .ok (.sub x y) ∧
    decode (packXYN 0x8#4 x y 0x7#4) = .ok (.subn x y) ∧
    (∃ t, exec (.sub x y) s = .next t ∧
      t.reg Reg.vf = (if (s.reg x).toNat ≥ (s.reg y).toNat then 1#8 else 0#8) ∧
      (x ≠ Reg.vf → ((t.reg x).toNat : Int) = ((s.reg x).toNat - (s.reg y).toNat : Int) % 2 ^ 8) ∧
      OnlyRegs (fun r => r = x ∨ r = Reg.vf) s t) ∧
    (∃ t, exec (.subn x y) s = .next t ∧
      t.reg Reg.vf = (if (s.reg y).toNat ≥ (s.reg x).toNat then 1#8 else 0#8) ∧
      (x ≠ Reg.vf → ((t.reg x).toNat : Int) = ((s.reg y).toNat - (s.reg x).toNat : Int) % 2 ^ 8) ∧
      OnlyRegs (fun r => r = x ∨ r = Reg.vf) s t)

/-- 8XY6 and 8XYE shift V[x] by one and give VF the bit shifted out. That V[x] and not V[y] is shifted and that the
flag is written last are the spec's choices (92_eei_decisions.md D6 and D8, log entry 11). -/
def Obligations.ShiftsMoveBitIntoFlag : Prop :=
  ∀ (x y : Reg) (s : State),
    decode (packXYN 0x8#4 x y 0x6#4) = .ok (.shr x y) ∧
    decode (packXYN 0x8#4 x y 0xE#4) = .ok (.shl x y) ∧
    (∃ t, exec (.shr x y) s = .next t ∧
      (t.reg Reg.vf).toNat = (s.reg x).toNat % 2 ∧
      (x ≠ Reg.vf → (t.reg x).toNat = (s.reg x).toNat / 2) ∧
      OnlyRegs (fun r => r = x ∨ r = Reg.vf) s t) ∧
    (∃ t, exec (.shl x y) s = .next t ∧
      (t.reg Reg.vf).toNat = (s.reg x).toNat / 2 ^ 7 ∧
      (x ≠ Reg.vf → (t.reg x).toNat = (s.reg x).toNat * 2 % 2 ^ 8) ∧
      OnlyRegs (fun r => r = x ∨ r = Reg.vf) s t)

/-! ### Index, offset jump, random, draw -/

/-- R170: ANNN loads I with nnn, zero-extended. -/
def Obligations.LoadIndex : Prop :=
  ∀ (nnn : Addr) (s : State), decode (packNNN 0xA#4 nnn) = .ok (.ldI nnn) ∧
    ∃ t, exec (.ldI nnn) s = .next t ∧ t.I.toNat = nnn.toNat ∧ OnlyI s t

/-- BNNN jumps to nnn + V0. That the sum is not cut to 12 bits is the spec's choice (92_eei_decisions.md D4, log
entry 14). -/
def Obligations.OffsetJumpAddsV0 : Prop :=
  ∀ (nnn : Addr) (s : State), decode (packNNN 0xB#4 nnn) = .ok (.jpV0 nnn) ∧
    ∃ t, exec (.jpV0 nnn) s = .next t ∧ t.PC.toNat = nnn.toNat + (s.reg 0#4).toNat ∧ OnlyPC s t

/-- CXNN writes the random byte masked with kk and nothing else. The random byte is the free value
`Config.randomByte` at the draw counter, which advances by one; the counter is the model's own (log entry 1). -/
def Obligations.RandomByteIsMasked : Prop :=
  ∀ (x : Reg) (kk : Byte) (s : State), decode (packXKK 0xC#4 x kk) = .ok (.rnd x kk) ∧
    ∃ t, exec (.rnd x kk) s = .next t ∧ t.reg x = Config.randomByte s.draws &&& kk ∧
      t.draws = s.draws + 1 ∧ (∀ r, r ≠ x → t.reg r = s.reg r) ∧
      t = { s with V := t.V, draws := t.draws } ∧ SameBytes s t

/-- DXYN: every pixel of the frame is XORed with the clipped sprite, VF is 1 exactly when a pixel went from on to
off, and nothing else changes; a sprite whose bytes pass 4095 halts. The bit order, n = 0 and the range of
clipped rows are the spec's choices (92_eei_decisions.md D3 and D14; log entries 9 and 12). -/
def Obligations.DrawXorsSpriteAndReportsCollision : Prop :=
  ∀ (x y : Reg) (n : Nibble) (s : State), decode (packXYN 0xD#4 x y n) = .ok (.drw x y n) ∧
    (0 < n.toNat ∧ s.I.toNat + n.toNat - 1 > 4095 → HaltsWith (.drw x y n) s .memRange) ∧
    (¬ (0 < n.toNat ∧ s.I.toNat + n.toNat - 1 > 4095) → ∃ t, exec (.drw x y n) s = .next t ∧
      (∀ p, p < 2048 → t.fb[p]? = (s.fb[p]?).map (· ^^ s.spriteAt x y n p)) ∧
      (s.spriteHits x y n → t.reg Reg.vf = 1#8) ∧ (¬ s.spriteHits x y n → t.reg Reg.vf = 0#8) ∧
      (∀ r, r ≠ Reg.vf → t.reg r = s.reg r) ∧
      t = { s with fb := t.fb, V := t.V } ∧ SameBytes s t)

/-- Drawing the same sprite at the same position again, with the pixels, I, the sprite bytes, V[x] and V[y]
unwritten in between, restores the framebuffer; VF of the second draw is 1 exactly when the sprite has a set bit
inside the frame on a pixel that was off before the first draw. So the rule of DXYN has it (44_index_draw.md); the
spec's derived sentence about VF leaves the last condition out (log entry 25). -/
def Obligations.DoubleDrawRestores : Prop :=
  ∀ (x y : Reg) (n : Nibble) (s t u : State),
    (n = 0#4 ∨ s.I.toNat + n.toNat - 1 ≤ 4095) → exec (.drw x y n) s = .next t →
    u.fb = t.fb → u.I = s.I → u.reg x = s.reg x → u.reg y = s.reg y →
    (∀ r, r < n.toNat → u.readByte (s.I.toNat + r) = s.readByte (s.I.toNat + r)) →
      ∃ w, exec (.drw x y n) u = .next w ∧ w.fb = s.fb ∧
        (w.reg Reg.vf = 1#8 ↔ ∃ p, p < 2048 ∧ s.fb[p]? = some false ∧ s.spriteAt x y n p = true) ∧
        (w.reg Reg.vf = 0#8 ↔ ¬ ∃ p, p < 2048 ∧ s.fb[p]? = some false ∧ s.spriteAt x y n p = true)

/-- The spec's derived sentence about the second of two draws, taken at its word: VF is 1 exactly when the sprite has
a set bit inside the frame. It does not follow from the rule of DXYN: where the first draw has turned every such
pixel off, the second turns them on and erases nothing (log entry 25). -/
def Obligations.SecondDrawAlwaysCollides : Prop :=
  ∀ (x y : Reg) (n : Nibble) (s t u w : State),
    (n = 0#4 ∨ s.I.toNat + n.toNat - 1 ≤ 4095) → exec (.drw x y n) s = .next t →
    u.fb = t.fb → u.I = s.I → u.reg x = s.reg x → u.reg y = s.reg y →
    (∀ r, r < n.toNat → u.readByte (s.I.toNat + r) = s.readByte (s.I.toNat + r)) →
    exec (.drw x y n) u = .next w →
      (w.reg Reg.vf = 1#8 ↔ ∃ p, p < 2048 ∧ s.spriteAt x y n p = true)

/-! ### Keys, timers, index and memory -/

/-- EX9E skips when the key numbered V[x] is down, EXA1 when it is up. That a number above 15 halts with KEY_RANGE is
the spec's choice (92_eei_decisions.md D13, log entry 15). -/
def Obligations.KeySkips : Prop :=
  ∀ (x : Reg) (s : State),
    decode (packXKK 0xE#4 x 0x9E#8) = .ok (.skp x) ∧
    decode (packXKK 0xE#4 x 0xA1#8) = .ok (.sknp x) ∧
    (∀ k : Fin 16, (s.reg x).toNat = k.val →
      (∃ t, exec (.skp x) s = .next t ∧
        t.PC = (if s.keyDown k = true then s.PC + 2#16 else s.PC) ∧ OnlyPC s t) ∧
      (∃ t, exec (.sknp x) s = .next t ∧
        t.PC = (if s.keyDown k = false then s.PC + 2#16 else s.PC) ∧ OnlyPC s t)) ∧
    ((s.reg x).toNat > 15 → HaltsWith (.skp x) s .keyRange ∧ HaltsWith (.sknp x) s .keyRange)

/-- R192, R194, R195: FX07 reads DT; FX15 and FX18 set DT and ST from V[x], and the sound output is on exactly for a
value above 0. -/
def Obligations.TimerTransfers : Prop :=
  ∀ (x : Reg) (s : State),
    decode (packXKK 0xF#4 x 0x07#8) = .ok (.ldVxDt x) ∧
    decode (packXKK 0xF#4 x 0x15#8) = .ok (.ldDtVx x) ∧
    decode (packXKK 0xF#4 x 0x18#8) = .ok (.ldStVx x) ∧
    (∃ t, exec (.ldVxDt x) s = .next t ∧ t.reg x = s.DT ∧ OnlyRegs (· = x) s t) ∧
    (∃ t, exec (.ldDtVx x) s = .next t ∧ t = { s with DT := s.reg x } ∧ SameBytes s t) ∧
    (∃ t, exec (.ldStVx x) s = .next t ∧ t = { s with ST := s.reg x } ∧ SameBytes s t ∧
      (t.soundActive = true ↔ 0 < (s.reg x).toNat))

/-- FX0A: with no key down PC goes back to the word itself and nothing else changes; otherwise the least key that is
down goes to V[x]. That the level of the flags counts, not an edge, is the spec's choice (92_eei_decisions.md
D28, log entry 16). -/
def Obligations.KeyWaitTakesLowestKey : Prop :=
  ∀ (x : Reg) (s : State), decode (packXKK 0xF#4 x 0x0A#8) = .ok (.ldVxK x) ∧
    ((∀ k, s.keyDown k = false) → ∃ t, exec (.ldVxK x) s = .next t ∧ t.PC = s.PC - 2#16 ∧ OnlyPC s t) ∧
    (∀ k, s.keyDown k = true → (∀ j, j < k → s.keyDown j = false) →
      ∃ t, exec (.ldVxK x) s = .next t ∧ (t.reg x).toNat = k.val ∧ OnlyRegs (· = x) s t)

/-- A program waiting in FX0A makes full steps that change nothing but `cur`, as long as the host sets no key
(45_key_timer_mem.md section 2; 60_exceptions.md section 6). -/
def Obligations.KeyWaitRepeatsUntilKey : Prop :=
  ∀ (x : Reg) (s : State) (op : Word) (k : Nat), s.runState = .running → fetchWord s = some op →
    decode op = .ok (.ldVxK x) → (∀ j, s.keyDown j = false) →
      runEvents (List.replicate (k + 1) .step) s = .next { s with cur := op }

/-- FX1E adds V[x] to I modulo 2^16 and writes no flag; FX29 points I at V[x] * 5. The wrap and the use of the whole
byte are the spec's choices (92_eei_decisions.md D5, log entry 14). -/
def Obligations.IndexArithmetic : Prop :=
  ∀ (x : Reg) (s : State),
    decode (packXKK 0xF#4 x 0x1E#8) = .ok (.addIVx x) ∧
    decode (packXKK 0xF#4 x 0x29#8) = .ok (.ldFVx x) ∧
    (∃ t, exec (.addIVx x) s = .next t ∧
      t.I.toNat = (s.I.toNat + (s.reg x).toNat) % 2 ^ 16 ∧ OnlyI s t) ∧
    (∃ t, exec (.ldFVx x) s = .next t ∧ t.I.toNat = (s.reg x).toNat * 5 ∧ OnlyI s t)

/-- FX33 stores the hundreds, tens and ones of V[x] at I, I + 1 and I + 2, and they make up V[x]; past 4095 it halts
before any byte is written (the spec's choice, 92_eei_decisions.md D3; log entry 9). -/
def Obligations.DecimalDigitsStored : Prop :=
  ∀ (x : Reg) (s : State), decode (packXKK 0xF#4 x 0x33#8) = .ok (.ldBVx x) ∧
    (s.I.toNat + 2 > 4095 → HaltsWith (.ldBVx x) s .memRange) ∧
    (s.I.toNat + 2 ≤ 4095 → s.mem.wf → ∃ t, exec (.ldBVx x) s = .next t ∧
      (t.readByte (s.indexAddr 0)).toNat = (s.reg x).toNat / 100 ∧
      (t.readByte (s.indexAddr 1)).toNat = (s.reg x).toNat / 10 % 10 ∧
      (t.readByte (s.indexAddr 2)).toNat = (s.reg x).toNat % 10 ∧
      100 * (t.readByte (s.indexAddr 0)).toNat + 10 * (t.readByte (s.indexAddr 1)).toNat +
        (t.readByte (s.indexAddr 2)).toNat = (s.reg x).toNat ∧
      OnlyBytes (s.indexAddr 0) (s.indexAddr 2) s t)

/-- FX55 stores V0 to V[x] at I to I + x; past 4095 it halts before any byte is written. The range check and that I
keeps its value are the spec's choices (92_eei_decisions.md D3 and D15; log entries 9 and 13). -/
def Obligations.RegistersStored : Prop :=
  ∀ (x : Reg) (s : State), decode (packXKK 0xF#4 x 0x55#8) = .ok (.ldMemVx x) ∧
    (s.indexAddr x.toNat > 4095 → HaltsWith (.ldMemVx x) s .memRange) ∧
    (s.indexAddr x.toNat ≤ 4095 → s.mem.wf → ∃ t, exec (.ldMemVx x) s = .next t ∧
      (∀ r : Reg, r.toNat ≤ x.toNat → t.readByte (s.indexAddr r.toNat) = s.reg r) ∧
      OnlyBytes (s.indexAddr 0) (s.indexAddr x.toNat) s t)

/-- FX65 loads V0 to V[x] from I to I + x; past 4095 it halts before any register is written. The range check and
that I keeps its value are the spec's choices (92_eei_decisions.md D3 and D15; log entries 9 and 13). -/
def Obligations.RegistersLoaded : Prop :=
  ∀ (x : Reg) (s : State), decode (packXKK 0xF#4 x 0x65#8) = .ok (.ldVxMem x) ∧
    (s.indexAddr x.toNat > 4095 → HaltsWith (.ldVxMem x) s .memRange) ∧
    (s.indexAddr x.toNat ≤ 4095 → ∃ t, exec (.ldVxMem x) s = .next t ∧
      (∀ r : Reg, r.toNat ≤ x.toNat → t.reg r = s.readByte (s.indexAddr r.toNat)) ∧
      OnlyRegs (fun r => r.toNat ≤ x.toNat) s t)

/-- FX55 and then FX65 with the same x and I, the stored bytes unwritten in between, gives V0 to V[x] their old
values back, whatever happened to the registers meanwhile (derived in 45_key_timer_mem.md section 4). -/
def Obligations.StoreThenLoadRestoresRegisters : Prop :=
  ∀ (x : Reg) (s t u : State), s.mem.wf → s.indexAddr x.toNat ≤ 4095 → exec (.ldMemVx x) s = .next t →
    u.I = t.I → (∀ k, k ≤ x.toNat → u.readByte (s.indexAddr k) = t.readByte (s.indexAddr k)) →
      ∃ w, exec (.ldVxMem x) u = .next w ∧ ∀ r : Reg, r.toNat ≤ x.toNat → w.reg r = s.reg r

/-- Code and data are one memory: a word FX55 stores is what a fetch from its address reads next, at once (the
spec's choice, 92_eei_decisions.md D22). -/
def Obligations.StoredWordIsFetched : Prop :=
  ∀ (x y z : Reg) (s : State), s.mem.wf → s.indexAddr x.toNat ≤ 4095 → z.toNat = y.toNat + 1 → z.toNat ≤ x.toNat →
    ∃ t, exec (.ldMemVx x) s = .next t ∧
      fetchWord { t with PC := BitVec.ofNat 16 (s.indexAddr y.toNat) } = some (wordOfBytes (s.reg y) (s.reg z))

/-! ### Reset, creation, host operations -/

/-- An empty ROM is accepted and, with the default configuration, gives the reset state; reset is Running at 0x200
with every register, the timers and SP zero, no pixel on, no key down and memory holding the font and zeros. The
values of `fb`, `key`, `cur`, `stack` and `halt_info`, the font bytes and the empty ROM are the spec's choices
(92_eei_decisions.md D16, D17 and D29; log entries 4 and 5). -/
def Obligations.ResetIsTheEmptyLoad : Prop :=
  create Config.default [] = .ok State.reset ∧
  State.reset.PC = 0x200 ∧ State.reset.runState = .running ∧ State.reset.SP.val = 0 ∧ State.reset.I = 0 ∧
  State.reset.DT = 0 ∧ State.reset.ST = 0 ∧ (∀ r, State.reset.reg r = 0) ∧
  (∀ a, State.reset.readByte a = if a < 80 then defaultFont.getD a 0 else 0) ∧
  (∀ p, p < 2048 → State.reset.fb[p]? = some false) ∧ (∀ k, State.reset.keyDown k = false)

/-- A ROM of up to 3584 bytes is loaded at 512, behind the font of the configuration and zeros, with every other
field at its reset value; a longer one gives no machine (70_reset_and_hazards.md section 1). The fields the
source gives no value for and the empty ROM are the spec's choices (92_eei_decisions.md D17 and D29; log entry
5). -/
def Obligations.CreateLoadsTheRom : Prop :=
  ∀ (cfg : Config) (rom : List Byte),
    (rom.length > 3584 → create cfg rom = .error .romTooLarge) ∧
    (rom.length ≤ 3584 → ∃ s, create cfg rom = .ok s ∧
      s = { State.reset with mem := s.mem, haltOnUnknown := cfg.haltOnUnknown } ∧ s.mem.wf ∧
      ∀ a, a < 4096 → s.readByte a =
        if a < 80 then cfg.font.toList.getD a 0 else if a < 512 then 0 else rom.getD (a - 512) 0)

/-- Each tick is a saturating decrement of its own timer and changes nothing else. That ticks are accepted in every
run state is the spec's choice (92_eei_decisions.md D18). -/
def Obligations.TimerTicksSaturate : Prop :=
  ∀ s : State,
    (∃ t, hostStep .tickDelay s = .next t ∧ t = { s with DT := t.DT } ∧ t.DT.toNat = s.DT.toNat - 1) ∧
    (∃ t, hostStep .tickSound s = .next t ∧ t = { s with ST := t.ST } ∧ t.ST.toNat = s.ST.toNat - 1)

/-- Key writes and run control: a key write sets one flag; pause, resume and quit change the run state, quit also
the halt record, with no diagnostic; an operation outside its run states does not happen (60_exceptions.md
sections 3 and 5; the operation set and the quit record are the spec's choices, 92_eei_decisions.md D1 and D19;
the fault is the model's, log entry 24). -/
def Obligations.KeyWritesAndRunControl : Prop :=
  ∀ s : State,
    (∀ k b, ∃ t, hostStep (.setKey k b) s = .next t ∧ t = { s with key := t.key } ∧ t.keyDown k = b ∧
      ∀ j, j ≠ k → t.keyDown j = s.keyDown j) ∧
    hostStep .pause s = (if s.runState = .running then .next { s with runState := .paused }
      else .fault .hostOpNotAllowed) ∧
    hostStep .resume s = (if s.runState = .paused then .next { s with runState := .running }
      else .fault .hostOpNotAllowed) ∧
    hostStep .quit s = (if s.runState = .halted then .fault .hostOpNotAllowed
      else .next { s with runState := .halted, haltInfo := some ⟨.quit, none, s.PC⟩ })

/-- Nothing leaves Halted (60_exceptions.md section 1). Whatever schedule of steps and host operations goes on from a
halted machine, it stays halted with its halt record, only the timers and the keypad flags can differ, and no step,
quit or resume is among its events. That ticks go on in Halted and steps do not, and where quit and resume are
allowed, are the spec's choices (60_exceptions.md sections 3 to 5; 92_eei_decisions.md D18 and D19); that the model
answers a fault there is its own (log entries 6 and 24). -/
def Obligations.HaltedIsTerminal : Prop :=
  ∀ (es : List Event) (s t : State), s.runState = .halted → runEvents es s = .next t →
    t = { s with DT := t.DT, ST := t.ST, key := t.key } ∧
    Event.step ∉ es ∧ Event.host .quit ∉ es ∧ Event.host .resume ∉ es

/-! ### Invariants -/

/-- The invariant holds after reset. -/
def Obligations.ResetMeetsInvariant : Prop := State.reset.Inv

/-- Every step keeps the invariant: memory stays in canonical form, PC at or below 0x10FE, the live stack entries
stay return addresses, and there is a halt record exactly in Halted (10_state.md sections 5, 6 and 11). -/
def Obligations.StepKeepsInvariant : Prop :=
  ∀ s t : State, s.Inv → step s = .next t → t.Inv

/-- Every machine that `create` makes and every schedule of steps and host operations from it meets the
invariant, and so a running machine never passes PC 0x10FE (60_exceptions.md section 3). -/
def Obligations.EveryScheduleKeepsInvariant : Prop :=
  (∀ cfg rom s, create cfg rom = .ok s → s.Inv) ∧
  ∀ (es : List Event) (s t : State), s.Inv → runEvents es s = .next t → t.Inv
end

