-- ==== Sys2Proof/Laws/Decode.lean ====
section
/-! SUPPORT. Words as numbers: a packed word, its two bytes and its six fields by division and remainder; so the
fields of a packed word are what was packed, and a word is made of its fields and of its bytes. -/

namespace Sys2Proof

/-- Two bit vectors side by side, as a number. -/
theorem toNat_append_eq {m n : Nat} (a : BitVec m) (b : BitVec n) :
    (a ++ b).toNat = a.toNat * 2 ^ n + b.toNat := by
  rw [BitVec.toNat_append, ← Nat.shiftLeft_add_eq_or_of_lt b.isLt, Nat.shiftLeft_eq]

/-! ### Words as numbers -/

theorem wordOfBytes_toNat (hi lo : Byte) : (wordOfBytes hi lo).toNat = hi.toNat * 256 + lo.toNat :=
  toNat_append_eq hi lo

theorem packNNN_toNat (h : Nibble) (nnn : Addr) : (packNNN h nnn).toNat = h.toNat * 4096 + nnn.toNat :=
  toNat_append_eq h nnn

theorem packXKK_toNat (h : Nibble) (x : Reg) (kk : Byte) :
    (packXKK h x kk).toNat = h.toNat * 4096 + x.toNat * 256 + kk.toNat := by
  have e : (packXKK h x kk).toNat = (h ++ x).toNat * 256 + kk.toNat := toNat_append_eq (h ++ x) kk
  rw [e, toNat_append_eq]
  omega

theorem packXYN_toNat (h : Nibble) (x y : Reg) (n : Nibble) :
    (packXYN h x y n).toNat = h.toNat * 4096 + x.toNat * 256 + y.toNat * 16 + n.toNat := by
  have e : (packXYN h x y n).toNat = (h ++ x ++ y).toNat * 16 + n.toNat := toNat_append_eq (h ++ x ++ y) n
  rw [e, toNat_append_eq, toNat_append_eq]
  omega

/-! ### Fields as numbers (R71) -/

section
variable (op : Word)

theorem highByte_toNat : (highByte op).toNat = op.toNat / 256 := by
  have := op.isLt
  simp [highByte, BitVec.extractLsb'_toNat, Nat.shiftRight_eq_div_pow]
  omega

theorem lowByte_toNat : (lowByte op).toNat = op.toNat % 256 := by
  simp [lowByte, BitVec.extractLsb'_toNat]

theorem opHi_toNat : (opHi op).toNat = op.toNat / 4096 := by
  have := op.isLt
  simp [opHi, BitVec.extractLsb'_toNat, Nat.shiftRight_eq_div_pow]
  omega

theorem opNnn_toNat : (opNnn op).toNat = op.toNat % 4096 := by
  simp [opNnn, BitVec.extractLsb'_toNat]

theorem opX_toNat : (opX op).toNat = op.toNat / 256 % 16 := by
  simp [opX, BitVec.extractLsb'_toNat, Nat.shiftRight_eq_div_pow]

theorem opY_toNat : (opY op).toNat = op.toNat / 16 % 16 := by
  simp [opY, BitVec.extractLsb'_toNat, Nat.shiftRight_eq_div_pow]

theorem opKk_toNat : (opKk op).toNat = op.toNat % 256 := by
  simp [opKk, BitVec.extractLsb'_toNat]

theorem opN_toNat : (opN op).toNat = op.toNat % 16 := by
  simp [opN, BitVec.extractLsb'_toNat]

/-- A word is its two bytes side by side (R50). -/
theorem wordOfBytes_highByte_lowByte : wordOfBytes (highByte op) (lowByte op) = op := by
  apply BitVec.eq_of_toNat_eq
  rw [wordOfBytes_toNat, highByte_toNat, lowByte_toNat]
  omega

/-- A word is its family nibble and its address field. -/
theorem packNNN_fields : packNNN (opHi op) (opNnn op) = op := by
  apply BitVec.eq_of_toNat_eq
  rw [packNNN_toNat, opHi_toNat, opNnn_toNat]
  omega

/-- A word is its family nibble, its first register field and its low byte. -/
theorem packXKK_fields : packXKK (opHi op) (opX op) (opKk op) = op := by
  apply BitVec.eq_of_toNat_eq
  rw [packXKK_toNat, opHi_toNat, opX_toNat, opKk_toNat]
  omega

/-- A word is its four nibbles. -/
theorem packXYN_fields : packXYN (opHi op) (opX op) (opY op) (opN op) = op := by
  apply BitVec.eq_of_toNat_eq
  rw [packXYN_toNat, opHi_toNat, opX_toNat, opY_toNat, opN_toNat]
  omega

end

/-! ### Fields of a packed word -/

section
variable (h n : Nibble) (x y : Reg) (kk : Byte) (nnn : Addr)

@[simp] theorem opHi_packNNN : opHi (packNNN h nnn) = h := by
  apply BitVec.eq_of_toNat_eq
  rw [opHi_toNat, packNNN_toNat]
  omega

@[simp] theorem opNnn_packNNN : opNnn (packNNN h nnn) = nnn := by
  apply BitVec.eq_of_toNat_eq
  rw [opNnn_toNat, packNNN_toNat]
  omega

@[simp] theorem opHi_packXKK : opHi (packXKK h x kk) = h := by
  apply BitVec.eq_of_toNat_eq
  rw [opHi_toNat, packXKK_toNat]
  omega

@[simp] theorem opX_packXKK : opX (packXKK h x kk) = x := by
  apply BitVec.eq_of_toNat_eq
  rw [opX_toNat, packXKK_toNat]
  omega

@[simp] theorem opKk_packXKK : opKk (packXKK h x kk) = kk := by
  apply BitVec.eq_of_toNat_eq
  rw [opKk_toNat, packXKK_toNat]
  omega

@[simp] theorem opHi_packXYN : opHi (packXYN h x y n) = h := by
  apply BitVec.eq_of_toNat_eq
  rw [opHi_toNat, packXYN_toNat]
  omega

@[simp] theorem opX_packXYN : opX (packXYN h x y n) = x := by
  apply BitVec.eq_of_toNat_eq
  rw [opX_toNat, packXYN_toNat]
  omega

@[simp] theorem opY_packXYN : opY (packXYN h x y n) = y := by
  apply BitVec.eq_of_toNat_eq
  rw [opY_toNat, packXYN_toNat]
  omega

@[simp] theorem opN_packXYN : opN (packXYN h x y n) = n := by
  apply BitVec.eq_of_toNat_eq
  rw [opN_toNat, packXYN_toNat]
  omega

end

/-- The sixteen values of a nibble, to split a dispatch on. -/
theorem Nibble.cases16 (k : Nibble) :
    k = 0#4 ∨ k = 1#4 ∨ k = 2#4 ∨ k = 3#4 ∨ k = 4#4 ∨ k = 5#4 ∨ k = 6#4 ∨ k = 7#4 ∨
    k = 8#4 ∨ k = 9#4 ∨ k = 10#4 ∨ k = 11#4 ∨ k = 12#4 ∨ k = 13#4 ∨ k = 14#4 ∨ k = 15#4 := by
  revert k
  decide

/-! ### Which words family 0 gives to its two fixed instructions (R76) -/

/-- A packed SYS word is 00E0 or 00EE exactly when its address field is. -/
theorem packNNN_zero_eq (nnn : Addr) (v : Addr) :
    packNNN 0#4 nnn = packNNN 0#4 v ↔ nnn = v :=
  ⟨fun h => by simpa using congrArg opNnn h, fun h => h ▸ rfl⟩

/-- The decoder reads the two bytes of a word as the word. -/
theorem decodeBytes_word (op : Word) (rest : List Byte) :
    decodeBytes (highByte op :: lowByte op :: rest) = (decode op).map (fun i => (i, rest)) := by
  rw [decodeBytes, wordOfBytes_highByte_lowByte]

/-- A 16-bit row of the opcode table is the word of its bits. -/
theorem tableWord_toNat (op : Word) : tableWord 16 op.toNat = op := by
  have := op.isLt
  apply BitVec.eq_of_toNat_eq
  simp only [tableWord, BitVec.toNat_ofNat]
  omega

end Sys2Proof
end

