-- ==== Sys2Proof/Laws/Memory.lean ====
section
/-! SUPPORT. Memory: a write is read back and leaves every other byte alone, every operation keeps the canonical
form, and a memory in canonical form is determined by what it reads. -/

namespace Sys2Proof.Machine.Memory

/-! ### One byte -/

@[simp] theorem read_nil (a : Nat) : read [] a = resetByte a := rfl

theorem read_cons (c : Host.Cell) (m : Memory) (a : Nat) :
    read (c :: m) a = if a = c.1 then c.2 else read m a := by
  cases c; rfl

/-- An address below every entry reads as the reset contents. -/
theorem read_of_forall_lt {m : Memory} {a : Nat} (h : ∀ c ∈ m, a < c.1) : m.read a = resetByte a := by
  induction m with
  | nil => rfl
  | cons c m ih =>
    have hc := h c (by simp)
    rw [read_cons, if_neg (by omega), ih fun d hd => h d (by simp [hd])]

/-- Putting a byte is read back, and no other address is touched. -/
theorem read_put {m : Memory} (hm : m.Pairwise (fun c d => c.1 < d.1)) (a : Nat) (v : Byte) (b : Nat) :
    (m.put a v).read b = if b = a then v else m.read b := by
  induction m with
  | nil =>
    by_cases hv : v = resetByte a <;> by_cases hb : b = a <;> simp [put, hv, hb, read_cons]
  | cons c m ih =>
    obtain ⟨d, w⟩ := c
    obtain ⟨hlt, hm⟩ := List.pairwise_cons.mp hm
    have hd : ∀ {x}, x ≤ d → read m x = resetByte x := fun hx =>
      read_of_forall_lt fun c hc => lt_of_le_of_lt hx (hlt c hc)
    rcases lt_trichotomy a d with had | rfl | had
    · have := hd had.le
      by_cases hv : v = resetByte a <;> by_cases hb : b = a <;>
        simp_all [put, read_cons, ne_of_lt]
    · have := hd (le_refl a)
      by_cases hv : v = resetByte a <;> by_cases hb : b = a <;> simp_all [put, read_cons]
    · have h1 : ¬ a < d := by omega
      have h2 : a ≠ d := by omega
      simp only [put, h1, h2, if_false, read_cons, ih hm]
      by_cases hb : b = d <;> simp [hb]
      omega

/-- Putting a byte touches no other address, whatever the list. -/
theorem read_put_ne (m : Memory) {a b : Nat} (v : Byte) (hb : b ≠ a) : (m.put a v).read b = m.read b := by
  induction m with
  | nil => by_cases hv : v = resetByte a <;> simp [put, hv, hb, read_cons]
  | cons c m ih =>
    obtain ⟨d, w⟩ := c
    simp only [put]
    split_ifs <;> simp_all [read_cons]

/-- Every entry after a put is the new one or an old one. -/
theorem mem_put {m : Memory} {a : Nat} {v : Byte} {c : Host.Cell} (h : c ∈ m.put a v) :
    (c = (a, v) ∧ v ≠ resetByte a) ∨ c ∈ m := by
  induction m with
  | nil =>
    by_cases hv : v = resetByte a <;> simp_all [put]
  | cons d m ih =>
    obtain ⟨d, w⟩ := d
    simp only [put] at h
    split_ifs at h <;> simp_all only [List.mem_cons, or_true] <;> tauto

theorem wf_put {m : Memory} (hm : m.wf) {a : Nat} (ha : a < 4096) (v : Byte) : (m.put a v).wf := by
  refine ⟨?_, fun c hc => ?_⟩
  · obtain ⟨hm, -⟩ := hm
    induction m with
    | nil => by_cases hv : v = resetByte a <;> simp [put, hv]
    | cons c m ih =>
      obtain ⟨d, w⟩ := c
      obtain ⟨hlt, hm'⟩ := List.pairwise_cons.mp hm
      simp only [put]
      split_ifs with h1 h2 h3 h4
      · exact hm
      · refine List.pairwise_cons.mpr ⟨fun c hc => ?_, hm⟩
        rcases List.mem_cons.mp hc with rfl | hc
        · exact h1
        · exact lt_trans h1 (hlt c hc)
      · exact hm'
      · exact List.pairwise_cons.mpr ⟨fun c hc => h3 ▸ hlt c hc, hm'⟩
      · refine List.pairwise_cons.mpr ⟨fun c hc => ?_, ih hm'⟩
        rcases mem_put hc with ⟨rfl, -⟩ | hc
        · show d < a
          omega
        · exact hlt c hc
  · rcases mem_put hc with ⟨rfl, hv⟩ | hc
    · exact ⟨ha, hv⟩
    · exact hm.2 c hc

/-- A write keeps the canonical form. -/
theorem wf_write {m : Memory} (hm : m.wf) (a : Nat) (v : Byte) : (m.write a v).wf := by
  unfold write
  split_ifs with ha
  · exact wf_put hm ha v
  · exact hm

/-- A write in the address space is read back, and no other address is touched. -/
theorem read_write {m : Memory} (hm : m.wf) {a : Nat} (ha : a < 4096) (v : Byte) (b : Nat) :
    (m.write a v).read b = if b = a then v else m.read b := by
  rw [write, if_pos ha, read_put hm.1]

/-- A write touches no other address, whatever the list. -/
theorem read_write_ne (m : Memory) {a b : Nat} (v : Byte) (hb : b ≠ a) : (m.write a v).read b = m.read b := by
  unfold write
  split_ifs
  · exact read_put_ne m v hb
  · rfl

/-! ### Runs of bytes -/

/-- Storing a run keeps the canonical form. -/
theorem wf_writeList (vs : List Byte) : ∀ {m : Memory}, m.wf → ∀ a, (m.writeList a vs).wf := by
  induction vs with
  | nil => exact fun hm _ => hm
  | cons v vs ih => exact fun hm a => ih (wf_write hm a v) (a + 1)

/-- What a stored run is read back as: its own bytes inside, the old ones outside. -/
theorem read_writeList (vs : List Byte) : ∀ {m : Memory}, m.wf → ∀ {a}, a + vs.length ≤ 4096 → ∀ b,
    (m.writeList a vs).read b = if h : a ≤ b ∧ b < a + vs.length then vs[b - a]'(by omega) else m.read b := by
  induction vs with
  | nil =>
    intro m _ a _ b
    rw [dif_neg (by simp), writeList]
  | cons v vs ih =>
    intro m hm a ha b
    simp only [List.length_cons] at ha ⊢
    rw [writeList, ih (wf_write hm a v) (by omega), read_write hm (by omega)]
    by_cases hb : b = a
    · subst hb
      simp
    · by_cases hin : a + 1 ≤ b ∧ b < a + 1 + vs.length
      · rw [dif_pos hin, dif_pos (by omega)]
        obtain ⟨k, rfl⟩ : ∃ k, b = a + 1 + k := ⟨b - (a + 1), by omega⟩
        simp [show a + 1 + k - a = k + 1 by omega]
      · rw [dif_neg hin, if_neg hb, dif_neg (by omega)]

/-- Storing a run leaves every byte outside it alone, whatever the list. -/
theorem read_writeList_of_not_mem (vs : List Byte) : ∀ (m : Memory) (a b : Nat),
    ¬ (a ≤ b ∧ b < a + vs.length) → (m.writeList a vs).read b = m.read b := by
  induction vs with
  | nil => exact fun _ _ _ _ => rfl
  | cons v vs ih =>
    intro m a b hb
    simp only [List.length_cons] at hb
    rw [writeList, ih _ _ _ (by omega), read_write_ne _ _ (by omega)]

@[simp] theorem length_readList (m : Memory) (n : Nat) : ∀ a, (m.readList a n).length = n := by
  induction n with
  | zero => exact fun _ => rfl
  | succ n ih => exact fun a => congrArg (· + 1) (ih (a + 1))

/-- The k-th byte of a run read from `a` is the byte at `a + k`. -/
@[simp] theorem getElem_readList (m : Memory) (n : Nat) :
    ∀ a k (h : k < (m.readList a n).length), (m.readList a n)[k] = m.read (a + k) := by
  induction n with
  | zero =>
    intro a k h
    simp at h
  | succ n ih =>
    intro a k h
    cases k with
    | zero => rfl
    | succ k =>
      simp only [readList, List.getElem_cons_succ, ih]
      congr 1
      omega

/-! ### The empty memory -/

/-- The empty list is in canonical form. -/
theorem wf_nil : wf [] := by simp [wf]

end Sys2Proof.Machine.Memory
end

