-- ==== Sys2Proof/Laws/State.lean ====
section
/-! SUPPORT. What each update of the state leaves in each field, so that no later proof unfolds a record update. -/

namespace Sys2Proof.Machine.State

variable (s : State)

/-! ### `setMem` -/

@[simp] theorem setMem_mem (m : Memory) : (s.setMem m).mem = m := rfl
@[simp] theorem setMem_V (m : Memory) : (s.setMem m).V = s.V := rfl
@[simp] theorem setMem_I (m : Memory) : (s.setMem m).I = s.I := rfl
@[simp] theorem setMem_PC (m : Memory) : (s.setMem m).PC = s.PC := rfl
@[simp] theorem setMem_stack (m : Memory) : (s.setMem m).stack = s.stack := rfl
@[simp] theorem setMem_SP (m : Memory) : (s.setMem m).SP = s.SP := rfl
@[simp] theorem setMem_fb (m : Memory) : (s.setMem m).fb = s.fb := rfl
@[simp] theorem setMem_DT (m : Memory) : (s.setMem m).DT = s.DT := rfl
@[simp] theorem setMem_ST (m : Memory) : (s.setMem m).ST = s.ST := rfl
@[simp] theorem setMem_key (m : Memory) : (s.setMem m).key = s.key := rfl
@[simp] theorem setMem_cur (m : Memory) : (s.setMem m).cur = s.cur := rfl
@[simp] theorem setMem_runState (m : Memory) : (s.setMem m).runState = s.runState := rfl
@[simp] theorem setMem_haltInfo (m : Memory) : (s.setMem m).haltInfo = s.haltInfo := rfl
@[simp] theorem setMem_haltOnUnknown (m : Memory) : (s.setMem m).haltOnUnknown = s.haltOnUnknown := rfl
@[simp] theorem setMem_draws (m : Memory) : (s.setMem m).draws = s.draws := rfl
@[simp] theorem setMem_diags (m : Memory) : (s.setMem m).diags = s.diags := rfl

/-! ### `setReg` -/

@[simp] theorem setReg_mem (x : Reg) (v : Byte) : (s.setReg x v).mem = s.mem := rfl
@[simp] theorem setReg_I (x : Reg) (v : Byte) : (s.setReg x v).I = s.I := rfl
@[simp] theorem setReg_PC (x : Reg) (v : Byte) : (s.setReg x v).PC = s.PC := rfl
@[simp] theorem setReg_stack (x : Reg) (v : Byte) : (s.setReg x v).stack = s.stack := rfl
@[simp] theorem setReg_SP (x : Reg) (v : Byte) : (s.setReg x v).SP = s.SP := rfl
@[simp] theorem setReg_fb (x : Reg) (v : Byte) : (s.setReg x v).fb = s.fb := rfl
@[simp] theorem setReg_DT (x : Reg) (v : Byte) : (s.setReg x v).DT = s.DT := rfl
@[simp] theorem setReg_ST (x : Reg) (v : Byte) : (s.setReg x v).ST = s.ST := rfl
@[simp] theorem setReg_key (x : Reg) (v : Byte) : (s.setReg x v).key = s.key := rfl
@[simp] theorem setReg_cur (x : Reg) (v : Byte) : (s.setReg x v).cur = s.cur := rfl
@[simp] theorem setReg_runState (x : Reg) (v : Byte) : (s.setReg x v).runState = s.runState := rfl
@[simp] theorem setReg_haltInfo (x : Reg) (v : Byte) : (s.setReg x v).haltInfo = s.haltInfo := rfl
@[simp] theorem setReg_haltOnUnknown (x : Reg) (v : Byte) : (s.setReg x v).haltOnUnknown = s.haltOnUnknown := rfl
@[simp] theorem setReg_draws (x : Reg) (v : Byte) : (s.setReg x v).draws = s.draws := rfl
@[simp] theorem setReg_diags (x : Reg) (v : Byte) : (s.setReg x v).diags = s.diags := rfl

/-! ### `setRegs` -/

@[simp] theorem setRegs_mem (vs : List Byte) : (s.setRegs vs).mem = s.mem := rfl
@[simp] theorem setRegs_V (vs : List Byte) : (s.setRegs vs).V = setRegsFrom s.V 0 vs := rfl
@[simp] theorem setRegs_I (vs : List Byte) : (s.setRegs vs).I = s.I := rfl
@[simp] theorem setRegs_PC (vs : List Byte) : (s.setRegs vs).PC = s.PC := rfl
@[simp] theorem setRegs_stack (vs : List Byte) : (s.setRegs vs).stack = s.stack := rfl
@[simp] theorem setRegs_SP (vs : List Byte) : (s.setRegs vs).SP = s.SP := rfl
@[simp] theorem setRegs_fb (vs : List Byte) : (s.setRegs vs).fb = s.fb := rfl
@[simp] theorem setRegs_DT (vs : List Byte) : (s.setRegs vs).DT = s.DT := rfl
@[simp] theorem setRegs_ST (vs : List Byte) : (s.setRegs vs).ST = s.ST := rfl
@[simp] theorem setRegs_key (vs : List Byte) : (s.setRegs vs).key = s.key := rfl
@[simp] theorem setRegs_cur (vs : List Byte) : (s.setRegs vs).cur = s.cur := rfl
@[simp] theorem setRegs_runState (vs : List Byte) : (s.setRegs vs).runState = s.runState := rfl
@[simp] theorem setRegs_haltInfo (vs : List Byte) : (s.setRegs vs).haltInfo = s.haltInfo := rfl
@[simp] theorem setRegs_haltOnUnknown (vs : List Byte) : (s.setRegs vs).haltOnUnknown = s.haltOnUnknown := rfl
@[simp] theorem setRegs_draws (vs : List Byte) : (s.setRegs vs).draws = s.draws := rfl
@[simp] theorem setRegs_diags (vs : List Byte) : (s.setRegs vs).diags = s.diags := rfl

/-! ### `setI` -/

@[simp] theorem setI_mem (v : Word) : (s.setI v).mem = s.mem := rfl
@[simp] theorem setI_V (v : Word) : (s.setI v).V = s.V := rfl
@[simp] theorem setI_I (v : Word) : (s.setI v).I = v := rfl
@[simp] theorem setI_PC (v : Word) : (s.setI v).PC = s.PC := rfl
@[simp] theorem setI_stack (v : Word) : (s.setI v).stack = s.stack := rfl
@[simp] theorem setI_SP (v : Word) : (s.setI v).SP = s.SP := rfl
@[simp] theorem setI_fb (v : Word) : (s.setI v).fb = s.fb := rfl
@[simp] theorem setI_DT (v : Word) : (s.setI v).DT = s.DT := rfl
@[simp] theorem setI_ST (v : Word) : (s.setI v).ST = s.ST := rfl
@[simp] theorem setI_key (v : Word) : (s.setI v).key = s.key := rfl
@[simp] theorem setI_cur (v : Word) : (s.setI v).cur = s.cur := rfl
@[simp] theorem setI_runState (v : Word) : (s.setI v).runState = s.runState := rfl
@[simp] theorem setI_haltInfo (v : Word) : (s.setI v).haltInfo = s.haltInfo := rfl
@[simp] theorem setI_haltOnUnknown (v : Word) : (s.setI v).haltOnUnknown = s.haltOnUnknown := rfl
@[simp] theorem setI_draws (v : Word) : (s.setI v).draws = s.draws := rfl
@[simp] theorem setI_diags (v : Word) : (s.setI v).diags = s.diags := rfl

/-! ### `setPC` -/

@[simp] theorem setPC_mem (v : Word) : (s.setPC v).mem = s.mem := rfl
@[simp] theorem setPC_V (v : Word) : (s.setPC v).V = s.V := rfl
@[simp] theorem setPC_I (v : Word) : (s.setPC v).I = s.I := rfl
@[simp] theorem setPC_PC (v : Word) : (s.setPC v).PC = v := rfl
@[simp] theorem setPC_stack (v : Word) : (s.setPC v).stack = s.stack := rfl
@[simp] theorem setPC_SP (v : Word) : (s.setPC v).SP = s.SP := rfl
@[simp] theorem setPC_fb (v : Word) : (s.setPC v).fb = s.fb := rfl
@[simp] theorem setPC_DT (v : Word) : (s.setPC v).DT = s.DT := rfl
@[simp] theorem setPC_ST (v : Word) : (s.setPC v).ST = s.ST := rfl
@[simp] theorem setPC_key (v : Word) : (s.setPC v).key = s.key := rfl
@[simp] theorem setPC_cur (v : Word) : (s.setPC v).cur = s.cur := rfl
@[simp] theorem setPC_runState (v : Word) : (s.setPC v).runState = s.runState := rfl
@[simp] theorem setPC_haltInfo (v : Word) : (s.setPC v).haltInfo = s.haltInfo := rfl
@[simp] theorem setPC_haltOnUnknown (v : Word) : (s.setPC v).haltOnUnknown = s.haltOnUnknown := rfl
@[simp] theorem setPC_draws (v : Word) : (s.setPC v).draws = s.draws := rfl
@[simp] theorem setPC_diags (v : Word) : (s.setPC v).diags = s.diags := rfl

/-! ### `skip` -/

@[simp] theorem skip_mem : (s.skip).mem = s.mem := rfl
@[simp] theorem skip_V : (s.skip).V = s.V := rfl
@[simp] theorem skip_I : (s.skip).I = s.I := rfl
@[simp] theorem skip_PC : (s.skip).PC = s.PC + 2#16 := rfl
@[simp] theorem skip_stack : (s.skip).stack = s.stack := rfl
@[simp] theorem skip_SP : (s.skip).SP = s.SP := rfl
@[simp] theorem skip_fb : (s.skip).fb = s.fb := rfl
@[simp] theorem skip_DT : (s.skip).DT = s.DT := rfl
@[simp] theorem skip_ST : (s.skip).ST = s.ST := rfl
@[simp] theorem skip_key : (s.skip).key = s.key := rfl
@[simp] theorem skip_cur : (s.skip).cur = s.cur := rfl
@[simp] theorem skip_runState : (s.skip).runState = s.runState := rfl
@[simp] theorem skip_haltInfo : (s.skip).haltInfo = s.haltInfo := rfl
@[simp] theorem skip_haltOnUnknown : (s.skip).haltOnUnknown = s.haltOnUnknown := rfl
@[simp] theorem skip_draws : (s.skip).draws = s.draws := rfl
@[simp] theorem skip_diags : (s.skip).diags = s.diags := rfl

/-! ### `setDT` -/

@[simp] theorem setDT_mem (v : Byte) : (s.setDT v).mem = s.mem := rfl
@[simp] theorem setDT_V (v : Byte) : (s.setDT v).V = s.V := rfl
@[simp] theorem setDT_I (v : Byte) : (s.setDT v).I = s.I := rfl
@[simp] theorem setDT_PC (v : Byte) : (s.setDT v).PC = s.PC := rfl
@[simp] theorem setDT_stack (v : Byte) : (s.setDT v).stack = s.stack := rfl
@[simp] theorem setDT_SP (v : Byte) : (s.setDT v).SP = s.SP := rfl
@[simp] theorem setDT_fb (v : Byte) : (s.setDT v).fb = s.fb := rfl
@[simp] theorem setDT_DT (v : Byte) : (s.setDT v).DT = v := rfl
@[simp] theorem setDT_ST (v : Byte) : (s.setDT v).ST = s.ST := rfl
@[simp] theorem setDT_key (v : Byte) : (s.setDT v).key = s.key := rfl
@[simp] theorem setDT_cur (v : Byte) : (s.setDT v).cur = s.cur := rfl
@[simp] theorem setDT_runState (v : Byte) : (s.setDT v).runState = s.runState := rfl
@[simp] theorem setDT_haltInfo (v : Byte) : (s.setDT v).haltInfo = s.haltInfo := rfl
@[simp] theorem setDT_haltOnUnknown (v : Byte) : (s.setDT v).haltOnUnknown = s.haltOnUnknown := rfl
@[simp] theorem setDT_draws (v : Byte) : (s.setDT v).draws = s.draws := rfl
@[simp] theorem setDT_diags (v : Byte) : (s.setDT v).diags = s.diags := rfl

/-! ### `setST` -/

@[simp] theorem setST_mem (v : Byte) : (s.setST v).mem = s.mem := rfl
@[simp] theorem setST_V (v : Byte) : (s.setST v).V = s.V := rfl
@[simp] theorem setST_I (v : Byte) : (s.setST v).I = s.I := rfl
@[simp] theorem setST_PC (v : Byte) : (s.setST v).PC = s.PC := rfl
@[simp] theorem setST_stack (v : Byte) : (s.setST v).stack = s.stack := rfl
@[simp] theorem setST_SP (v : Byte) : (s.setST v).SP = s.SP := rfl
@[simp] theorem setST_fb (v : Byte) : (s.setST v).fb = s.fb := rfl
@[simp] theorem setST_DT (v : Byte) : (s.setST v).DT = s.DT := rfl
@[simp] theorem setST_ST (v : Byte) : (s.setST v).ST = v := rfl
@[simp] theorem setST_key (v : Byte) : (s.setST v).key = s.key := rfl
@[simp] theorem setST_cur (v : Byte) : (s.setST v).cur = s.cur := rfl
@[simp] theorem setST_runState (v : Byte) : (s.setST v).runState = s.runState := rfl
@[simp] theorem setST_haltInfo (v : Byte) : (s.setST v).haltInfo = s.haltInfo := rfl
@[simp] theorem setST_haltOnUnknown (v : Byte) : (s.setST v).haltOnUnknown = s.haltOnUnknown := rfl
@[simp] theorem setST_draws (v : Byte) : (s.setST v).draws = s.draws := rfl
@[simp] theorem setST_diags (v : Byte) : (s.setST v).diags = s.diags := rfl

/-! ### `nextDraw` -/

@[simp] theorem nextDraw_mem : (s.nextDraw).mem = s.mem := rfl
@[simp] theorem nextDraw_V : (s.nextDraw).V = s.V := rfl
@[simp] theorem nextDraw_I : (s.nextDraw).I = s.I := rfl
@[simp] theorem nextDraw_PC : (s.nextDraw).PC = s.PC := rfl
@[simp] theorem nextDraw_stack : (s.nextDraw).stack = s.stack := rfl
@[simp] theorem nextDraw_SP : (s.nextDraw).SP = s.SP := rfl
@[simp] theorem nextDraw_fb : (s.nextDraw).fb = s.fb := rfl
@[simp] theorem nextDraw_DT : (s.nextDraw).DT = s.DT := rfl
@[simp] theorem nextDraw_ST : (s.nextDraw).ST = s.ST := rfl
@[simp] theorem nextDraw_key : (s.nextDraw).key = s.key := rfl
@[simp] theorem nextDraw_cur : (s.nextDraw).cur = s.cur := rfl
@[simp] theorem nextDraw_runState : (s.nextDraw).runState = s.runState := rfl
@[simp] theorem nextDraw_haltInfo : (s.nextDraw).haltInfo = s.haltInfo := rfl
@[simp] theorem nextDraw_haltOnUnknown : (s.nextDraw).haltOnUnknown = s.haltOnUnknown := rfl
@[simp] theorem nextDraw_draws : (s.nextDraw).draws = s.draws + 1 := rfl
@[simp] theorem nextDraw_diags : (s.nextDraw).diags = s.diags := rfl

/-! ### `setFb` -/

@[simp] theorem setFb_mem (fb : Framebuffer) : (s.setFb fb).mem = s.mem := rfl
@[simp] theorem setFb_V (fb : Framebuffer) : (s.setFb fb).V = s.V := rfl
@[simp] theorem setFb_I (fb : Framebuffer) : (s.setFb fb).I = s.I := rfl
@[simp] theorem setFb_PC (fb : Framebuffer) : (s.setFb fb).PC = s.PC := rfl
@[simp] theorem setFb_stack (fb : Framebuffer) : (s.setFb fb).stack = s.stack := rfl
@[simp] theorem setFb_SP (fb : Framebuffer) : (s.setFb fb).SP = s.SP := rfl
@[simp] theorem setFb_fb (fb : Framebuffer) : (s.setFb fb).fb = fb := rfl
@[simp] theorem setFb_DT (fb : Framebuffer) : (s.setFb fb).DT = s.DT := rfl
@[simp] theorem setFb_ST (fb : Framebuffer) : (s.setFb fb).ST = s.ST := rfl
@[simp] theorem setFb_key (fb : Framebuffer) : (s.setFb fb).key = s.key := rfl
@[simp] theorem setFb_cur (fb : Framebuffer) : (s.setFb fb).cur = s.cur := rfl
@[simp] theorem setFb_runState (fb : Framebuffer) : (s.setFb fb).runState = s.runState := rfl
@[simp] theorem setFb_haltInfo (fb : Framebuffer) : (s.setFb fb).haltInfo = s.haltInfo := rfl
@[simp] theorem setFb_haltOnUnknown (fb : Framebuffer) : (s.setFb fb).haltOnUnknown = s.haltOnUnknown := rfl
@[simp] theorem setFb_draws (fb : Framebuffer) : (s.setFb fb).draws = s.draws := rfl
@[simp] theorem setFb_diags (fb : Framebuffer) : (s.setFb fb).diags = s.diags := rfl

/-! ### `halt` -/

@[simp] theorem halt_mem (r : HaltReason) (o : Option Word) (a : Word) : (s.halt r o a).mem = s.mem := rfl
@[simp] theorem halt_V (r : HaltReason) (o : Option Word) (a : Word) : (s.halt r o a).V = s.V := rfl
@[simp] theorem halt_I (r : HaltReason) (o : Option Word) (a : Word) : (s.halt r o a).I = s.I := rfl
@[simp] theorem halt_PC (r : HaltReason) (o : Option Word) (a : Word) : (s.halt r o a).PC = s.PC := rfl
@[simp] theorem halt_stack (r : HaltReason) (o : Option Word) (a : Word) : (s.halt r o a).stack = s.stack := rfl
@[simp] theorem halt_SP (r : HaltReason) (o : Option Word) (a : Word) : (s.halt r o a).SP = s.SP := rfl
@[simp] theorem halt_fb (r : HaltReason) (o : Option Word) (a : Word) : (s.halt r o a).fb = s.fb := rfl
@[simp] theorem halt_DT (r : HaltReason) (o : Option Word) (a : Word) : (s.halt r o a).DT = s.DT := rfl
@[simp] theorem halt_ST (r : HaltReason) (o : Option Word) (a : Word) : (s.halt r o a).ST = s.ST := rfl
@[simp] theorem halt_key (r : HaltReason) (o : Option Word) (a : Word) : (s.halt r o a).key = s.key := rfl
@[simp] theorem halt_cur (r : HaltReason) (o : Option Word) (a : Word) : (s.halt r o a).cur = s.cur := rfl
@[simp] theorem halt_runState (r : HaltReason) (o : Option Word) (a : Word) : (s.halt r o a).runState = .halted := rfl
@[simp] theorem halt_haltInfo (r : HaltReason) (o : Option Word) (a : Word) : (s.halt r o a).haltInfo = some ⟨r, o, a⟩ := rfl
@[simp] theorem halt_haltOnUnknown (r : HaltReason) (o : Option Word) (a : Word) : (s.halt r o a).haltOnUnknown = s.haltOnUnknown := rfl
@[simp] theorem halt_draws (r : HaltReason) (o : Option Word) (a : Word) : (s.halt r o a).draws = s.draws := rfl
@[simp] theorem halt_diags (r : HaltReason) (o : Option Word) (a : Word) : (s.halt r o a).diags = s.diags ++ [⟨r, o, a⟩] := rfl

/-! ### `fetched` -/

@[simp] theorem fetched_mem (op : Word) : (s.fetched op).mem = s.mem := rfl
@[simp] theorem fetched_V (op : Word) : (s.fetched op).V = s.V := rfl
@[simp] theorem fetched_I (op : Word) : (s.fetched op).I = s.I := rfl
@[simp] theorem fetched_PC (op : Word) : (s.fetched op).PC = s.PC + 2#16 := rfl
@[simp] theorem fetched_stack (op : Word) : (s.fetched op).stack = s.stack := rfl
@[simp] theorem fetched_SP (op : Word) : (s.fetched op).SP = s.SP := rfl
@[simp] theorem fetched_fb (op : Word) : (s.fetched op).fb = s.fb := rfl
@[simp] theorem fetched_DT (op : Word) : (s.fetched op).DT = s.DT := rfl
@[simp] theorem fetched_ST (op : Word) : (s.fetched op).ST = s.ST := rfl
@[simp] theorem fetched_key (op : Word) : (s.fetched op).key = s.key := rfl
@[simp] theorem fetched_cur (op : Word) : (s.fetched op).cur = op := rfl
@[simp] theorem fetched_runState (op : Word) : (s.fetched op).runState = s.runState := rfl
@[simp] theorem fetched_haltInfo (op : Word) : (s.fetched op).haltInfo = s.haltInfo := rfl
@[simp] theorem fetched_haltOnUnknown (op : Word) : (s.fetched op).haltOnUnknown = s.haltOnUnknown := rfl
@[simp] theorem fetched_draws (op : Word) : (s.fetched op).draws = s.draws := rfl
@[simp] theorem fetched_diags (op : Word) : (s.fetched op).diags = s.diags := rfl

/-! ### `setFlag` -/

@[simp] theorem setFlag_mem (b : Bool) : (s.setFlag b).mem = s.mem := rfl
@[simp] theorem setFlag_I (b : Bool) : (s.setFlag b).I = s.I := rfl
@[simp] theorem setFlag_PC (b : Bool) : (s.setFlag b).PC = s.PC := rfl
@[simp] theorem setFlag_stack (b : Bool) : (s.setFlag b).stack = s.stack := rfl
@[simp] theorem setFlag_SP (b : Bool) : (s.setFlag b).SP = s.SP := rfl
@[simp] theorem setFlag_fb (b : Bool) : (s.setFlag b).fb = s.fb := rfl
@[simp] theorem setFlag_DT (b : Bool) : (s.setFlag b).DT = s.DT := rfl
@[simp] theorem setFlag_ST (b : Bool) : (s.setFlag b).ST = s.ST := rfl
@[simp] theorem setFlag_key (b : Bool) : (s.setFlag b).key = s.key := rfl
@[simp] theorem setFlag_cur (b : Bool) : (s.setFlag b).cur = s.cur := rfl
@[simp] theorem setFlag_runState (b : Bool) : (s.setFlag b).runState = s.runState := rfl
@[simp] theorem setFlag_haltInfo (b : Bool) : (s.setFlag b).haltInfo = s.haltInfo := rfl
@[simp] theorem setFlag_haltOnUnknown (b : Bool) : (s.setFlag b).haltOnUnknown = s.haltOnUnknown := rfl
@[simp] theorem setFlag_draws (b : Bool) : (s.setFlag b).draws = s.draws := rfl
@[simp] theorem setFlag_diags (b : Bool) : (s.setFlag b).diags = s.diags := rfl

/-! ### `setRegFlag` -/

@[simp] theorem setRegFlag_mem (x : Reg) (v : Byte) (b : Bool) : (s.setRegFlag x v b).mem = s.mem := rfl
@[simp] theorem setRegFlag_I (x : Reg) (v : Byte) (b : Bool) : (s.setRegFlag x v b).I = s.I := rfl
@[simp] theorem setRegFlag_PC (x : Reg) (v : Byte) (b : Bool) : (s.setRegFlag x v b).PC = s.PC := rfl
@[simp] theorem setRegFlag_stack (x : Reg) (v : Byte) (b : Bool) : (s.setRegFlag x v b).stack = s.stack := rfl
@[simp] theorem setRegFlag_SP (x : Reg) (v : Byte) (b : Bool) : (s.setRegFlag x v b).SP = s.SP := rfl
@[simp] theorem setRegFlag_fb (x : Reg) (v : Byte) (b : Bool) : (s.setRegFlag x v b).fb = s.fb := rfl
@[simp] theorem setRegFlag_DT (x : Reg) (v : Byte) (b : Bool) : (s.setRegFlag x v b).DT = s.DT := rfl
@[simp] theorem setRegFlag_ST (x : Reg) (v : Byte) (b : Bool) : (s.setRegFlag x v b).ST = s.ST := rfl
@[simp] theorem setRegFlag_key (x : Reg) (v : Byte) (b : Bool) : (s.setRegFlag x v b).key = s.key := rfl
@[simp] theorem setRegFlag_cur (x : Reg) (v : Byte) (b : Bool) : (s.setRegFlag x v b).cur = s.cur := rfl
@[simp] theorem setRegFlag_runState (x : Reg) (v : Byte) (b : Bool) : (s.setRegFlag x v b).runState = s.runState := rfl
@[simp] theorem setRegFlag_haltInfo (x : Reg) (v : Byte) (b : Bool) : (s.setRegFlag x v b).haltInfo = s.haltInfo := rfl
@[simp] theorem setRegFlag_haltOnUnknown (x : Reg) (v : Byte) (b : Bool) : (s.setRegFlag x v b).haltOnUnknown = s.haltOnUnknown := rfl
@[simp] theorem setRegFlag_draws (x : Reg) (v : Byte) (b : Bool) : (s.setRegFlag x v b).draws = s.draws := rfl
@[simp] theorem setRegFlag_diags (x : Reg) (v : Byte) (b : Bool) : (s.setRegFlag x v b).diags = s.diags := rfl

/-! ### Reading one byte and one register after an update -/

@[simp] theorem setMem_reg (m : Memory) (y : Reg) : (s.setMem m).reg y = s.reg y := rfl
@[simp] theorem setMem_indexAddr (m : Memory) (k : Nat) : (s.setMem m).indexAddr k = s.indexAddr k := rfl
@[simp] theorem setReg_readByte (x : Reg) (v : Byte) (p : Nat) : (s.setReg x v).readByte p = s.readByte p := rfl
@[simp] theorem setReg_indexAddr (x : Reg) (v : Byte) (k : Nat) : (s.setReg x v).indexAddr k = s.indexAddr k := rfl
@[simp] theorem setRegs_readByte (vs : List Byte) (p : Nat) : (s.setRegs vs).readByte p = s.readByte p := rfl
@[simp] theorem setRegs_indexAddr (vs : List Byte) (k : Nat) : (s.setRegs vs).indexAddr k = s.indexAddr k := rfl
@[simp] theorem setI_readByte (v : Word) (p : Nat) : (s.setI v).readByte p = s.readByte p := rfl
@[simp] theorem setI_reg (v : Word) (y : Reg) : (s.setI v).reg y = s.reg y := rfl
@[simp] theorem setPC_readByte (v : Word) (p : Nat) : (s.setPC v).readByte p = s.readByte p := rfl
@[simp] theorem setPC_reg (v : Word) (y : Reg) : (s.setPC v).reg y = s.reg y := rfl
@[simp] theorem setPC_indexAddr (v : Word) (k : Nat) : (s.setPC v).indexAddr k = s.indexAddr k := rfl
@[simp] theorem skip_readByte (p : Nat) : (s.skip).readByte p = s.readByte p := rfl
@[simp] theorem skip_reg (y : Reg) : (s.skip).reg y = s.reg y := rfl
@[simp] theorem skip_indexAddr (k : Nat) : (s.skip).indexAddr k = s.indexAddr k := rfl
@[simp] theorem setDT_readByte (v : Byte) (p : Nat) : (s.setDT v).readByte p = s.readByte p := rfl
@[simp] theorem setDT_reg (v : Byte) (y : Reg) : (s.setDT v).reg y = s.reg y := rfl
@[simp] theorem setDT_indexAddr (v : Byte) (k : Nat) : (s.setDT v).indexAddr k = s.indexAddr k := rfl
@[simp] theorem setST_readByte (v : Byte) (p : Nat) : (s.setST v).readByte p = s.readByte p := rfl
@[simp] theorem setST_reg (v : Byte) (y : Reg) : (s.setST v).reg y = s.reg y := rfl
@[simp] theorem setST_indexAddr (v : Byte) (k : Nat) : (s.setST v).indexAddr k = s.indexAddr k := rfl
@[simp] theorem nextDraw_readByte (p : Nat) : (s.nextDraw).readByte p = s.readByte p := rfl
@[simp] theorem nextDraw_reg (y : Reg) : (s.nextDraw).reg y = s.reg y := rfl
@[simp] theorem nextDraw_indexAddr (k : Nat) : (s.nextDraw).indexAddr k = s.indexAddr k := rfl
@[simp] theorem setFb_readByte (fb : Framebuffer) (p : Nat) : (s.setFb fb).readByte p = s.readByte p := rfl
@[simp] theorem setFb_reg (fb : Framebuffer) (y : Reg) : (s.setFb fb).reg y = s.reg y := rfl
@[simp] theorem setFb_indexAddr (fb : Framebuffer) (k : Nat) : (s.setFb fb).indexAddr k = s.indexAddr k := rfl
@[simp] theorem halt_readByte (r : HaltReason) (o : Option Word) (a : Word) (p : Nat) : (s.halt r o a).readByte p = s.readByte p := rfl
@[simp] theorem halt_reg (r : HaltReason) (o : Option Word) (a : Word) (y : Reg) : (s.halt r o a).reg y = s.reg y := rfl
@[simp] theorem halt_indexAddr (r : HaltReason) (o : Option Word) (a : Word) (k : Nat) : (s.halt r o a).indexAddr k = s.indexAddr k := rfl
@[simp] theorem fetched_readByte (op : Word) (p : Nat) : (s.fetched op).readByte p = s.readByte p := rfl
@[simp] theorem fetched_reg (op : Word) (y : Reg) : (s.fetched op).reg y = s.reg y := rfl
@[simp] theorem fetched_indexAddr (op : Word) (k : Nat) : (s.fetched op).indexAddr k = s.indexAddr k := rfl
@[simp] theorem setFlag_readByte (b : Bool) (p : Nat) : (s.setFlag b).readByte p = s.readByte p := rfl
@[simp] theorem setFlag_indexAddr (b : Bool) (k : Nat) : (s.setFlag b).indexAddr k = s.indexAddr k := rfl
@[simp] theorem setRegFlag_readByte (x : Reg) (v : Byte) (b : Bool) (p : Nat) : (s.setRegFlag x v b).readByte p = s.readByte p := rfl
@[simp] theorem setRegFlag_indexAddr (x : Reg) (v : Byte) (b : Bool) (k : Nat) : (s.setRegFlag x v b).indexAddr k = s.indexAddr k := rfl

@[simp] theorem setMem_readByte (m : Memory) (p : Nat) : (s.setMem m).readByte p = m.read p := rfl

end Sys2Proof.Machine.State
end

