-- ==== Sys2Proof/Laws/Ops.lean ====
section
/-! SUPPORT. What each shared operation can do, said once: registers, flags, the call stack, range checks, halts,
and the operand computations. -/

namespace Sys2Proof.Machine

variable (s : State)

/-! ### Registers and the flag -/

/-- A register write is read back and touches no other register. -/
theorem State.reg_setReg (x : Reg) (v : Byte) (y : Reg) :
    (s.setReg x v).reg y = if y = x then v else s.reg y := by
  simp only [State.reg, State.setReg, Vector.getElem_set, BitVec.toNat_inj, eq_comm]

@[simp] theorem State.reg_setReg_same (x : Reg) (v : Byte) : (s.setReg x v).reg x = v := by
  simp [State.reg_setReg]

theorem State.reg_setReg_ne {x y : Reg} (h : y ≠ x) (v : Byte) : (s.setReg x v).reg y = s.reg y := by
  simp [State.reg_setReg, h]

/-- Writing the flag is a write of VF. -/
theorem State.reg_setFlag (b : Bool) (y : Reg) :
    (s.setFlag b).reg y = if y = Reg.vf then (if b then 1#8 else 0#8) else s.reg y :=
  s.reg_setReg _ _ y

/-- After a flag-producing write VF holds the flag, also when it is the destination (43_alu.md rule R160). -/
theorem State.reg_setRegFlag (x : Reg) (v : Byte) (b : Bool) (y : Reg) :
    (s.setRegFlag x v b).reg y =
      if y = Reg.vf then (if b then 1#8 else 0#8) else if y = x then v else s.reg y := by
  rw [State.setRegFlag, State.reg_setFlag, State.reg_setReg]

@[simp] theorem State.readByte_setRegFlag (x : Reg) (v : Byte) (b : Bool) (a : Nat) :
    (s.setRegFlag x v b).readByte a = s.readByte a := rfl

/-- A run of register writes: the k-th register holds the k-th byte, the ones past the run are as before. -/
theorem getElem_setRegsFrom (vs : List Byte) : ∀ (V : Vector Byte 16) (k j : Nat) (hj : j < 16),
    (setRegsFrom V k vs)[j] = if h : k ≤ j ∧ j < k + vs.length then vs[j - k]'(by omega) else V[j] := by
  induction vs with
  | nil =>
    intro V k j hj
    rw [dif_neg (by simp), setRegsFrom]
  | cons v vs ih =>
    intro V k j hj
    rw [setRegsFrom, ih, Vector.getElem_setIfInBounds hj]
    by_cases hk : k = j
    · subst hk
      simp
    · by_cases hin : k + 1 ≤ j ∧ j < k + 1 + vs.length
      · rw [dif_pos hin, dif_pos (by simp; omega)]
        obtain ⟨d, rfl⟩ : ∃ d, j = k + 1 + d := ⟨j - (k + 1), by omega⟩
        simp [show k + 1 + d - k = d + 1 by omega]
      · rw [dif_neg hin, if_neg hk, dif_neg (by simp; omega)]

/-- The bytes FX65 writes, register by register. -/
theorem State.reg_setRegs (vs : List Byte) (y : Reg) :
    (s.setRegs vs).reg y = if h : y.toNat < vs.length then vs[y.toNat] else s.reg y := by
  have hy : y.toNat < 16 := y.isLt
  simp [State.reg, State.setRegs, getElem_setRegsFrom vs s.V 0 y.toNat hy]

@[simp] theorem State.length_regsUpTo (x : Reg) : (s.regsUpTo x).length = x.toNat + 1 := by
  have hx : x.toNat < 16 := x.isLt
  simp [State.regsUpTo]
  omega

/-- The k-th byte FX55 stores is `V[k]`. -/
theorem State.getElem_regsUpTo (x y : Reg) (h : y.toNat < (s.regsUpTo x).length) :
    (s.regsUpTo x)[y.toNat] = s.reg y := by
  simp [State.regsUpTo, State.reg]

/-! ### The call stack -/

/-- A push succeeds exactly below twelve entries, and changes the slot at the old depth and the depth alone. -/
theorem State.push?_eq_some {s t : State} {v : Word} (h : s.push? v = some t) :
    s.SP.val < 12 ∧ t.SP.val = s.SP.val + 1 ∧ t = { s with stack := t.stack, SP := t.SP } ∧
      ∀ (k : Nat) (hk : k < 12), t.stack[k] = if k = s.SP.val then v else s.stack[k] := by
  unfold State.push? at h
  split at h
  · next hs =>
    obtain rfl := (Option.some.inj h).symm
    refine ⟨hs, rfl, rfl, fun k hk => ?_⟩
    simp only [Vector.getElem_set, eq_comm]
  · cases h

theorem State.push?_eq_none {v : Word} : s.push? v = none ↔ s.SP.val = 12 := by
  have := s.SP.isLt
  unfold State.push?
  split <;> simp <;> omega

/-- A pop succeeds exactly above zero entries, gives the top slot and changes the depth alone. -/
theorem State.pop?_eq_some {s t : State} {v : Word} (h : s.pop? = some (v, t)) :
    ∃ h0 : 0 < s.SP.val, v = s.stack[s.SP.val - 1]'(by have := s.SP.isLt; omega) ∧
      t.SP.val = s.SP.val - 1 ∧ t = { s with SP := t.SP } := by
  unfold State.pop? at h
  split at h
  · next hs =>
    obtain ⟨rfl, rfl⟩ := Prod.mk.inj (Option.some.inj h)
    exact ⟨hs, rfl, rfl, rfl⟩
  · cases h

theorem State.pop?_eq_none : s.pop? = none ↔ s.SP.val = 0 := by
  unfold State.pop?
  split <;> simp <;> omega

/-! ### Halts -/

/-- A range check either lets the handler go on or halts with MEM_RANGE. -/
theorem checkRange_eq (hi : Nat) (body : Result) :
    checkRange hi s body = if hi ≤ 4095 then body else raiseHalt .memRange s := by
  unfold checkRange
  split_ifs <;> first | rfl | omega

theorem checkRange_of_le {hi : Nat} (h : hi ≤ 4095) (body : Result) : checkRange hi s body = body := by
  rw [checkRange_eq, if_pos h]

theorem checkRange_of_gt {hi : Nat} (h : 4095 < hi) (body : Result) :
    checkRange hi s body = raiseHalt .memRange s := by
  rw [checkRange_eq, if_neg (by omega)]

/-- A halt raised by a handler is a next state. -/
theorem raiseHalt_eq (r : HaltReason) :
    raiseHalt r s = .next (s.halt r (some s.cur) (s.PC - 2#16)) := rfl

/-! ### Skips -/

theorem State.skipIf_eq (c : Bool) : s.skipIf c = s.setPC (if c then s.PC + 2#16 else s.PC) := by
  cases c <;> rfl

/-! ### Operands -/

theorem sum8_eq (a b : Byte) : sum8 a b = a + b := by
  apply BitVec.eq_of_toNat_eq
  simp [sum8, BitVec.toNat_add]

theorem diff8_eq (a b : Byte) : diff8 a b = a - b := by
  apply BitVec.eq_of_toNat_eq
  simp only [diff8, BitVec.toNat_ofNat, BitVec.toNat_sub]
  congr 1
  have := b.isLt
  omega

theorem indexSum_eq (i : Word) (v : Byte) : indexSum i v = i + v.setWidth 16 := by
  apply BitVec.eq_of_toNat_eq
  have := v.isLt
  simp [indexSum, BitVec.toNat_add]

theorem offsetTarget_toNat (nnn : Addr) (v : Byte) :
    (offsetTarget nnn v).toNat = nnn.toNat + v.toNat := by
  have := nnn.isLt
  have := v.isLt
  simp [offsetTarget]
  omega

theorem glyphAddr_toNat (v : Byte) : (glyphAddr v).toNat = v.toNat * 5 := by
  have := v.isLt
  simp [glyphAddr]
  omega

theorem zext16_toNat (nnn : Addr) : (zext16 nnn).toNat = nnn.toNat := by
  have := nnn.isLt
  simp [zext16]
  omega

/-- A byte names a key exactly when it is at most 15 (45_key_timer_mem.md rule R201). -/
theorem keyIndex?_eq_none {v : Byte} : keyIndex? v = none ↔ 15 < v.toNat := by
  unfold keyIndex?
  split <;> simp <;> omega

theorem keyIndex?_eq_some {v : Byte} {k : Fin 16} : keyIndex? v = some k ↔ v.toNat = k.val := by
  unfold keyIndex?
  split
  · simp [Fin.ext_iff]
  · have := k.isLt
    simp
    omega

/-- The least key down, characterised (45_key_timer_mem.md rule R193). -/
theorem State.lowestKey?_eq_some {k : Nat} :
    s.lowestKey? = some k ↔ ∃ h : k < 16, s.key[k] = true ∧ ∀ (j : Nat) (hj : j < k), s.key[j] = false := by
  simp only [State.lowestKey?, List.findIdx?_eq_some_iff_getElem, Vector.length_toList, Vector.getElem_toList, id,
    Bool.not_eq_true]

theorem State.lowestKey?_eq_none :
    s.lowestKey? = none ↔ ∀ (j : Nat) (hj : j < 16), s.key[j] = false := by
  simp only [State.lowestKey?, List.findIdx?_eq_none_iff, id]
  constructor
  · intro h j hj
    exact h _ (by simp)
  · intro h b hb
    obtain ⟨j, hj, rfl⟩ := List.mem_iff_getElem.mp hb
    simpa using h j (by simpa using hj)

/-- A saturating decrement takes one off a value above zero and leaves zero (60_exceptions.md rule R232). -/
theorem satDec_toNat (v : Byte) : (satDec v).toNat = v.toNat - 1 := by
  unfold satDec
  split_ifs with h
  · have := v.isLt
    have h0 : 0 < v.toNat := by simpa [BitVec.lt_def] using h
    have h1 : BitVec.toNat 1#8 = 1 := rfl
    rw [BitVec.toNat_sub, h1]
    omega
  · have : v.toNat = 0 := by simpa [BitVec.lt_def] using h
    omega

end Sys2Proof.Machine
end

