-- ==== Sys2Proof/Laws/Draw.lean ====
section
/-! SUPPORT. What drawing does: the framebuffer is XORed with the clipped sprite, and the hit flag says whether a
pixel was on where the sprite has one (44_index_draw.md rule R174). -/

namespace Sys2Proof.Machine

/-- Does a sprite drawn at column `x0`, row `y0` have a set bit at pixel `p`? Bit 7 of a row is its leftmost
column (R175); a position outside the frame is no pixel. -/
def spriteCovers (bs : List Byte) (x0 y0 p : Nat) : Bool :=
  decide (x0 ≤ p % 64 ∧ p % 64 < x0 + 8 ∧ y0 ≤ p / 64) &&
    (bs.getD (p / 64 - y0) 0).getLsbD (7 - (p % 64 - x0))

/-- One set bit inside the frame flips its pixel; outside the frame nothing changes. -/
theorem drawPixel_fst (px py : Nat) (fb : Framebuffer) (hit : Bool) (p : Nat) (hp : p < 2048) :
    (drawPixel px py (fb, hit)).1[p] = (fb[p] ^^ decide (p / 64 = py ∧ p % 64 = px)) := by
  simp only [drawPixel]
  split
  · next h =>
    simp only [Vector.getElem_set]
    split
    · next e =>
      subst e
      have : (py * 64 + px) / 64 = py ∧ (py * 64 + px) % 64 = px := by omega
      simp [this]
    · next e =>
      have : ¬ (p / 64 = py ∧ p % 64 = px) := by omega
      simp [this]
  · next h =>
    have : ¬ (p / 64 = py ∧ p % 64 = px) := by omega
    simp [this]

/-- One set bit counts as a hit when its pixel is inside the frame and on. -/
theorem drawPixel_snd (px py : Nat) (fb : Framebuffer) (hit : Bool) :
    (drawPixel px py (fb, hit)).2 = true ↔
      hit = true ∨ ∃ (p : Nat) (hp : p < 2048), fb[p] = true ∧ p / 64 = py ∧ p % 64 = px := by
  simp only [drawPixel]
  split
  · next h =>
    simp only [Bool.or_eq_true]
    refine or_congr_right ⟨fun hon => ⟨py * 64 + px, by omega, hon, by omega, by omega⟩, ?_⟩
    rintro ⟨p, hp, hon, h1, h2⟩
    obtain rfl : p = py * 64 + px := by omega
    exact hon
  · next h =>
    refine ⟨Or.inl, ?_⟩
    rintro (hit | ⟨p, hp, -, h1, h2⟩)
    · exact hit
    · exact absurd ⟨by omega, by omega⟩ h

/-- Does the part of a sprite row left of its column `k` have a set bit at pixel `p`? -/
def rowCovers (b : Byte) (x0 py k p : Nat) : Bool :=
  decide (p / 64 = py ∧ x0 ≤ p % 64 ∧ p % 64 < x0 + k) && b.getLsbD (7 - (p % 64 - x0))

theorem rowCovers_succ (b : Byte) (x0 py k p : Nat) :
    rowCovers b x0 py (k + 1) p =
      (rowCovers b x0 py k p || (b.getLsbD (7 - k) && decide (p / 64 = py ∧ p % 64 = x0 + k))) := by
  unfold rowCovers
  by_cases e : p % 64 = x0 + k
  · have h1 : ¬ (p / 64 = py ∧ x0 ≤ p % 64 ∧ p % 64 < x0 + k) := by omega
    have h2 : decide (p / 64 = py ∧ x0 ≤ p % 64 ∧ p % 64 < x0 + (k + 1)) = decide (p / 64 = py) :=
      decide_eq_decide.mpr (by omega)
    have h3 : p % 64 - x0 = k := by omega
    rw [decide_eq_false h1, h2, h3]
    simp [e, Bool.and_comm]
  · have h1 : (p / 64 = py ∧ x0 ≤ p % 64 ∧ p % 64 < x0 + (k + 1)) ↔
        (p / 64 = py ∧ x0 ≤ p % 64 ∧ p % 64 < x0 + k) := by omega
    simp [h1, e]

/-- The first `k` columns of a row. -/
def drawColumns (b : Byte) (x0 py k : Nat) (d : Framebuffer × Bool) : Framebuffer × Bool :=
  (List.range k).foldl (fun d c => if b.getLsbD (7 - c) then drawPixel (x0 + c) py d else d) d

theorem drawColumns_succ (b : Byte) (x0 py k : Nat) (d : Framebuffer × Bool) :
    drawColumns b x0 py (k + 1) d =
      if b.getLsbD (7 - k) then drawPixel (x0 + k) py (drawColumns b x0 py k d) else drawColumns b x0 py k d := by
  simp [drawColumns, List.range_succ]

theorem drawColumns_fst (b : Byte) (x0 py : Nat) (fb : Framebuffer) (hit : Bool) (p : Nat) (hp : p < 2048) :
    ∀ k, (drawColumns b x0 py k (fb, hit)).1[p] = (fb[p] ^^ rowCovers b x0 py k p) := by
  intro k
  induction k with
  | zero =>
    have : ¬ (x0 ≤ p % 64 ∧ p % 64 < x0) := by omega
    simp [drawColumns, rowCovers, this]
  | succ k ih =>
    rw [drawColumns_succ, rowCovers_succ]
    by_cases hb : b.getLsbD (7 - k) = true
    · have hx : (rowCovers b x0 py k p && decide (p / 64 = py ∧ p % 64 = x0 + k)) = false := by
        simp only [rowCovers, Bool.and_eq_false_iff, decide_eq_false_iff_not]
        omega
      rw [if_pos hb, ← Prod.mk.eta (p := drawColumns b x0 py k (fb, hit)), drawPixel_fst _ _ _ _ _ hp, ih, hb]
      revert hx
      cases fb[p] <;> cases rowCovers b x0 py k p <;> cases decide (p / 64 = py ∧ p % 64 = x0 + k) <;> simp
    · rw [if_neg hb, ih]
      simp [hb]

theorem drawColumns_snd (b : Byte) (x0 py : Nat) (fb : Framebuffer) (hit : Bool) :
    ∀ k, (drawColumns b x0 py k (fb, hit)).2 = true ↔
      hit = true ∨ ∃ (p : Nat) (hp : p < 2048), fb[p] = true ∧ rowCovers b x0 py k p = true := by
  intro k
  induction k with
  | zero =>
    refine ⟨Or.inl, ?_⟩
    rintro (hit | ⟨p, hp, -, h⟩)
    · exact hit
    · simp only [rowCovers, Bool.and_eq_true, decide_eq_true_eq] at h
      omega
  | succ k ih =>
    rw [drawColumns_succ]
    by_cases hb : b.getLsbD (7 - k) = true
    · rw [if_pos hb, ← Prod.mk.eta (p := drawColumns b x0 py k (fb, hit)), drawPixel_snd, ih, or_assoc]
      refine or_congr_right ⟨?_, ?_⟩
      · rintro (⟨p, hp, hon, h⟩ | ⟨p, hp, hon, h⟩)
        · exact ⟨p, hp, hon, by simp [rowCovers_succ, h]⟩
        · refine ⟨p, hp, ?_, by simp [rowCovers_succ, hb, h]⟩
          have hx : rowCovers b x0 py k p = false := by
            simp only [rowCovers, Bool.and_eq_false_iff, decide_eq_false_iff_not]
            omega
          simpa [drawColumns_fst b x0 py fb hit p hp k, hx] using hon
      · rintro ⟨p, hp, hon, h⟩
        by_cases hx : rowCovers b x0 py k p = true
        · exact Or.inl ⟨p, hp, hon, hx⟩
        · refine Or.inr ⟨p, hp, ?_, ?_⟩
          · simpa [drawColumns_fst b x0 py fb hit p hp k, hx] using hon
          · simpa [rowCovers_succ, hx, hb] using h
    · rw [if_neg hb, ih]
      simp [rowCovers_succ, hb]

/-- A sprite is its first row and the rows after it. -/
theorem spriteCovers_cons (b : Byte) (bs : List Byte) (x0 py p : Nat) :
    spriteCovers (b :: bs) x0 py p = (rowCovers b x0 py 8 p || spriteCovers bs x0 (py + 1) p) := by
  unfold spriteCovers rowCovers
  by_cases h0 : p / 64 = py
  · have h1 : ¬ py + 1 ≤ p / 64 := by omega
    simp [h0]
  · by_cases h1 : py + 1 ≤ p / 64
    · have h2 : p / 64 - py = (p / 64 - (py + 1)) + 1 := by omega
      have h3 : py ≤ p / 64 := by omega
      simp [h0, h1, h2, h3]
    · have h3 : ¬ py ≤ p / 64 := by omega
      simp [h0, h1, h3]

/-- A row and the rows after it share no pixel. -/
theorem rowCovers_disjoint (b : Byte) (bs : List Byte) (x0 py p : Nat) :
    (rowCovers b x0 py 8 p && spriteCovers bs x0 (py + 1) p) = false := by
  by_cases h : p / 64 = py
  · have : ¬ py + 1 ≤ p / 64 := by omega
    simp [spriteCovers, h]
  · simp [rowCovers, h]

/-- Drawing a sprite XORs the framebuffer with the sprite's pixels inside the frame. -/
theorem drawRows_fst (x0 : Nat) (bs : List Byte) : ∀ (py : Nat) (fb : Framebuffer) (hit : Bool) (p : Nat)
    (hp : p < 2048), (drawRows x0 py bs (fb, hit)).1[p] = (fb[p] ^^ spriteCovers bs x0 py p) := by
  induction bs with
  | nil =>
    intro py fb hit p hp
    simp [drawRows, spriteCovers]
  | cons b bs ih =>
    intro py fb hit p hp
    have hrow : (drawRow b x0 py (fb, hit)).1[p] = (fb[p] ^^ rowCovers b x0 py 8 p) :=
      drawColumns_fst b x0 py fb hit p hp 8
    rw [drawRows, ← Prod.mk.eta (p := drawRow b x0 py (fb, hit)), ih _ _ _ p hp, hrow, spriteCovers_cons]
    have := rowCovers_disjoint b bs x0 py p
    revert this
    cases fb[p] <;> cases rowCovers b x0 py 8 p <;> cases spriteCovers bs x0 (py + 1) p <;> simp

/-- Drawing a sprite reports a hit exactly when a pixel was on where the sprite has one inside the frame. -/
theorem drawRows_snd (x0 : Nat) (bs : List Byte) : ∀ (py : Nat) (fb : Framebuffer) (hit : Bool),
    (drawRows x0 py bs (fb, hit)).2 = true ↔
      hit = true ∨ ∃ (p : Nat) (hp : p < 2048), fb[p] = true ∧ spriteCovers bs x0 py p = true := by
  induction bs with
  | nil =>
    intro py fb hit
    simp [drawRows, spriteCovers]
  | cons b bs ih =>
    intro py fb hit
    have hfst : ∀ (p : Nat) (hp : p < 2048), (drawRow b x0 py (fb, hit)).1[p] = (fb[p] ^^ rowCovers b x0 py 8 p) :=
      fun p hp => drawColumns_fst b x0 py fb hit p hp 8
    have hsnd : (drawRow b x0 py (fb, hit)).2 = true ↔
        hit = true ∨ ∃ (p : Nat) (hp : p < 2048), fb[p] = true ∧ rowCovers b x0 py 8 p = true :=
      drawColumns_snd b x0 py fb hit 8
    rw [drawRows, ← Prod.mk.eta (p := drawRow b x0 py (fb, hit)), ih, hsnd, or_assoc]
    refine or_congr_right ⟨?_, ?_⟩
    · rintro (⟨p, hp, hon, h⟩ | ⟨p, hp, hon, h⟩)
      · exact ⟨p, hp, hon, by simp [spriteCovers_cons, h]⟩
      · have hx : rowCovers b x0 py 8 p = false := by
          simpa [h] using rowCovers_disjoint b bs x0 py p
        exact ⟨p, hp, by simpa [hfst p hp, hx] using hon, by simp [spriteCovers_cons, h]⟩
    · rintro ⟨p, hp, hon, h⟩
      by_cases hx : rowCovers b x0 py 8 p = true
      · exact Or.inl ⟨p, hp, hon, hx⟩
      · refine Or.inr ⟨p, hp, by simpa [hfst p hp, hx] using hon, ?_⟩
        simpa [spriteCovers_cons, hx] using h

/-- The sprite DXYN draws, in the terms claims use. -/
theorem spriteCovers_readList (s : State) (x y : Reg) (n : Nibble) (p : Nat) :
    spriteCovers (s.mem.readList (s.indexAddr 0) n.toNat) (startColumn (s.reg x)) (startRow (s.reg y)) p =
      s.spriteAt x y n p := by
  unfold spriteCovers State.spriteAt startColumn startRow
  by_cases hrow : p / 64 < (s.reg y).toNat % 32 + n.toNat
  · by_cases hlo : (s.reg y).toNat % 32 ≤ p / 64
    · have hlen : p / 64 - (s.reg y).toNat % 32 < (s.mem.readList (s.indexAddr 0) n.toNat).length := by
        rw [Memory.length_readList]
        omega
      rw [List.getD_eq_getElem _ _ hlen, Memory.getElem_readList]
      simp [hrow, State.indexAddr, State.readByte]
    · simp [hlo]
  · have hlen : (s.mem.readList (s.indexAddr 0) n.toNat).length ≤ p / 64 - (s.reg y).toNat % 32 := by
      rw [Memory.length_readList]
      omega
    rw [List.getD_eq_default _ _ hlen]
    simp [hrow]

/-- What DXYN leaves in the framebuffer (R174). -/
theorem State.draw_fst (s : State) (x y : Reg) (n : Nibble) (p : Nat) (hp : p < 2048) :
    (s.draw x y n).1[p] = (s.fb[p] ^^ s.spriteAt x y n p) := by
  rw [State.draw, drawRows_fst _ _ _ _ _ p hp, spriteCovers_readList]

/-- When DXYN reports a collision (R174). -/
theorem State.draw_snd (s : State) (x y : Reg) (n : Nibble) :
    (s.draw x y n).2 = true ↔
      ∃ (p : Nat) (hp : p < 2048), s.fb[p] = true ∧ s.spriteAt x y n p = true := by
  rw [State.draw, drawRows_snd]
  simp only [spriteCovers_readList, Bool.false_eq_true, false_or]

end Sys2Proof.Machine
end

