-- ==== Sys2Proof/Laws/PerInstr.lean ====
section
/-! SUPPORT. One fact per instruction as syntax: the top nibble of its word is its family (30_encoding.md rule
R75). -/

namespace Sys2Proof.Laws.FamilyNibble

/-- The family of an instruction, by the dispatch map (R75). -/
def family : Instr → Nibble
  | .sys _ | .cls | .ret => 0x0
  | .jp _ => 0x1
  | .call _ => 0x2
  | .seImm _ _ => 0x3
  | .sneImm _ _ => 0x4
  | .seReg _ _ _ => 0x5
  | .ldImm _ _ => 0x6
  | .addImm _ _ => 0x7
  | .ldReg _ _ | .orReg _ _ | .andReg _ _ | .xorReg _ _ | .addReg _ _ | .sub _ _ | .shr _ _ | .subn _ _
  | .shl _ _ => 0x8
  | .sneReg _ _ _ => 0x9
  | .ldI _ => 0xA
  | .jpV0 _ => 0xB
  | .rnd _ _ => 0xC
  | .drw _ _ _ => 0xD
  | .skp _ | .sknp _ => 0xE
  | .ldVxDt _ | .ldVxK _ | .ldDtVx _ | .ldStVx _ | .addIVx _ | .ldFVx _ | .ldBVx _ | .ldMemVx _
  | .ldVxMem _ => 0xF

/-- The encoder puts the family in bits 15..12. -/
def Statement (i : Instr) : Prop := opHi (encode i) = family i

theorem sys (nnn : Addr) : Statement (.sys nnn) := opHi_packNNN _ _
theorem cls : Statement .cls := by unfold Statement; decide
theorem ret : Statement .ret := by unfold Statement; decide
theorem jp (nnn : Addr) : Statement (.jp nnn) := opHi_packNNN _ _
theorem call (nnn : Addr) : Statement (.call nnn) := opHi_packNNN _ _
theorem seImm (x : Reg) (kk : Byte) : Statement (.seImm x kk) := opHi_packXKK _ _ _
theorem sneImm (x : Reg) (kk : Byte) : Statement (.sneImm x kk) := opHi_packXKK _ _ _
theorem seReg (x y : Reg) (s : Nibble) : Statement (.seReg x y s) := opHi_packXYN _ _ _ _
theorem ldImm (x : Reg) (kk : Byte) : Statement (.ldImm x kk) := opHi_packXKK _ _ _
theorem addImm (x : Reg) (kk : Byte) : Statement (.addImm x kk) := opHi_packXKK _ _ _
theorem ldReg (x y : Reg) : Statement (.ldReg x y) := opHi_packXYN _ _ _ _
theorem orReg (x y : Reg) : Statement (.orReg x y) := opHi_packXYN _ _ _ _
theorem andReg (x y : Reg) : Statement (.andReg x y) := opHi_packXYN _ _ _ _
theorem xorReg (x y : Reg) : Statement (.xorReg x y) := opHi_packXYN _ _ _ _
theorem addReg (x y : Reg) : Statement (.addReg x y) := opHi_packXYN _ _ _ _
theorem sub (x y : Reg) : Statement (.sub x y) := opHi_packXYN _ _ _ _
theorem shr (x y : Reg) : Statement (.shr x y) := opHi_packXYN _ _ _ _
theorem subn (x y : Reg) : Statement (.subn x y) := opHi_packXYN _ _ _ _
theorem shl (x y : Reg) : Statement (.shl x y) := opHi_packXYN _ _ _ _
theorem sneReg (x y : Reg) (s : Nibble) : Statement (.sneReg x y s) := opHi_packXYN _ _ _ _
theorem ldI (nnn : Addr) : Statement (.ldI nnn) := opHi_packNNN _ _
theorem jpV0 (nnn : Addr) : Statement (.jpV0 nnn) := opHi_packNNN _ _
theorem rnd (x : Reg) (kk : Byte) : Statement (.rnd x kk) := opHi_packXKK _ _ _
theorem drw (x y : Reg) (n : Nibble) : Statement (.drw x y n) := opHi_packXYN _ _ _ _
theorem skp (x : Reg) : Statement (.skp x) := opHi_packXKK _ _ _
theorem sknp (x : Reg) : Statement (.sknp x) := opHi_packXKK _ _ _
theorem ldVxDt (x : Reg) : Statement (.ldVxDt x) := opHi_packXKK _ _ _
theorem ldVxK (x : Reg) : Statement (.ldVxK x) := opHi_packXKK _ _ _
theorem ldDtVx (x : Reg) : Statement (.ldDtVx x) := opHi_packXKK _ _ _
theorem ldStVx (x : Reg) : Statement (.ldStVx x) := opHi_packXKK _ _ _
theorem addIVx (x : Reg) : Statement (.addIVx x) := opHi_packXKK _ _ _
theorem ldFVx (x : Reg) : Statement (.ldFVx x) := opHi_packXKK _ _ _
theorem ldBVx (x : Reg) : Statement (.ldBVx x) := opHi_packXKK _ _ _
theorem ldMemVx (x : Reg) : Statement (.ldMemVx x) := opHi_packXKK _ _ _
theorem ldVxMem (x : Reg) : Statement (.ldVxMem x) := opHi_packXKK _ _ _

end Sys2Proof.Laws.FamilyNibble
end

