-- ==== Sys2Proof/Laws/Step.lean ====
section
/-! SUPPORT. What a step and each handler that has more than one outcome can do, said once. -/

namespace Sys2Proof.Machine

variable {s t : State}

/-! ### The step -/

@[simp] theorem stepGate_eq_none : stepGate s = none ↔ s.runState = .running := by
  unfold stepGate
  cases s.runState <;> simp

/-- The fetch succeeds exactly up to PC = 4094 (40_cycle.md rule R91). -/
theorem fetchWord_eq_some (h : s.PC.toNat ≤ 4094) :
    fetchWord s = some (wordOfBytes (s.readByte s.PC.toNat) (s.readByte (s.PC.toNat + 1))) := by
  unfold fetchWord
  rw [if_neg (by omega)]

theorem fetchWord_eq_none : fetchWord s = none ↔ 4094 < s.PC.toNat := by
  unfold fetchWord
  split <;> simp <;> omega

/-- The fetch address of the fetched word is the PC before the fetch. -/
@[simp] theorem fetched_fetchAddr (op : Word) : (s.fetched op).fetchAddr = s.PC := by
  simp [State.fetchAddr]

/-- A running machine whose word decodes runs the instruction (40_cycle.md rule R100). -/
theorem step_of_decode {op : Word} {i : Instr} (hr : s.runState = .running) (hf : fetchWord s = some op)
    (hd : decode op = .ok i) : step s = exec i (s.fetched op) := by
  simp only [step, stepGate_eq_none.mpr hr, hf, hd]

theorem step_of_fetch_none (hr : s.runState = .running) (hf : fetchWord s = none) :
    step s = .next (fetchRangeHalt s) := by
  simp only [step, stepGate_eq_none.mpr hr, hf]

theorem step_of_unknown {op : Word} {e : DecodeError} (hr : s.runState = .running) (hf : fetchWord s = some op)
    (hd : decode op = .error e) : step s = .next (unknownOpcode (s.fetched op)) := by
  simp only [step, stepGate_eq_none.mpr hr, hf, hd]

/-- What a step can do: it is taken in Running only, and it is a fetch halt, an instruction, or the
unknown-opcode policy. -/
theorem step_eq_next (h : step s = .next t) :
    s.runState = .running ∧
      ((4094 < s.PC.toNat ∧ t = fetchRangeHalt s) ∨
        (s.PC.toNat ≤ 4094 ∧ ∃ op, fetchWord s = some op ∧
          ((∃ i, decode op = .ok i ∧ exec i (s.fetched op) = .next t) ∨
            (∃ e, decode op = .error e ∧ t = unknownOpcode (s.fetched op))))) := by
  have hr : s.runState = .running := by
    by_contra hr
    unfold step at h
    split at h
    · cases h
    · next hg => exact hr (stepGate_eq_none.mp hg)
  refine ⟨hr, ?_⟩
  by_cases hpc : 4094 < s.PC.toNat
  · rw [step_of_fetch_none hr (fetchWord_eq_none.mpr hpc)] at h
    exact .inl ⟨hpc, (Host.Outcome.next.inj h).symm⟩
  · refine .inr ⟨by omega, _, fetchWord_eq_some (by omega), ?_⟩
    have hf := fetchWord_eq_some (s := s) (by omega)
    cases hd : decode (wordOfBytes (s.readByte s.PC.toNat) (s.readByte (s.PC.toNat + 1))) with
    | ok i => exact .inl ⟨i, rfl, by rw [← step_of_decode hr hf hd, h]⟩
    | error e =>
      rw [step_of_unknown hr hf hd] at h
      exact .inr ⟨e, rfl, (Host.Outcome.next.inj h).symm⟩

/-! ### Handlers with more than one outcome -/

theorem execRet_cases :
    (s.SP.val = 0 ∧ execRet s = raiseHalt .stackUnderflow s) ∨
      ∃ v u, s.pop? = some (v, u) ∧ execRet s = .next (u.setPC v) := by
  unfold execRet
  cases h : s.pop? with
  | none => exact .inl ⟨s.pop?_eq_none.mp h, rfl⟩
  | some p => exact .inr ⟨p.1, p.2, rfl, rfl⟩

theorem execCall_cases (nnn : Addr) :
    (s.SP.val = 12 ∧ execCall nnn s = raiseHalt .stackOverflow s) ∨
      ∃ u, s.push? s.PC = some u ∧ execCall nnn s = .next (u.setPC (zext16 nnn)) := by
  unfold execCall
  cases h : s.push? s.PC with
  | none => exact .inl ⟨s.push?_eq_none.mp h, rfl⟩
  | some u => exact .inr ⟨u, rfl, rfl⟩

theorem execSkp_cases (x : Reg) :
    (15 < (s.reg x).toNat ∧ execSkp x s = raiseHalt .keyRange s) ∨
      ∃ k : Fin 16, (s.reg x).toNat = k.val ∧ execSkp x s = .next (s.skipIf s.key[k]) := by
  unfold execSkp
  cases h : keyIndex? (s.reg x) with
  | none => exact .inl ⟨keyIndex?_eq_none.mp h, rfl⟩
  | some k => exact .inr ⟨k, keyIndex?_eq_some.mp h, rfl⟩

theorem execSknp_cases (x : Reg) :
    (15 < (s.reg x).toNat ∧ execSknp x s = raiseHalt .keyRange s) ∨
      ∃ k : Fin 16, (s.reg x).toNat = k.val ∧ execSknp x s = .next (s.skipIf (!s.key[k])) := by
  unfold execSknp
  cases h : keyIndex? (s.reg x) with
  | none => exact .inl ⟨keyIndex?_eq_none.mp h, rfl⟩
  | some k => exact .inr ⟨k, keyIndex?_eq_some.mp h, rfl⟩

theorem execLdVxK_cases (x : Reg) :
    (s.lowestKey? = none ∧ execLdVxK x s = .next (s.setPC (s.PC - 2#16))) ∨
      ∃ k, s.lowestKey? = some k ∧ execLdVxK x s = .next (s.setReg x (BitVec.ofNat 8 k)) := by
  unfold execLdVxK
  cases s.lowestKey? with
  | none => exact .inl ⟨rfl, rfl⟩
  | some k => exact .inr ⟨k, rfl, rfl⟩

/-- A draw with no row only clears VF; with rows it is range checked and then draws. -/
theorem execDrw_eq (x y : Reg) (n : Nibble) :
    execDrw x y n s =
      if n = 0#4 then .next (s.setFlag false)
      else if s.I.toNat + (n.toNat - 1) ≤ 4095 then
        .next ((s.setFb (s.draw x y n).1).setFlag (s.draw x y n).2)
      else raiseHalt .memRange s := by
  rw [execDrw, checkRange_eq]
  rfl

theorem execLdBVx_eq (x : Reg) :
    execLdBVx x s =
      if s.I.toNat + 2 ≤ 4095 then
        .next (s.setMem (s.mem.writeList s.I.toNat (decimalDigits (s.reg x))))
      else raiseHalt .memRange s := checkRange_eq _ _ _

theorem execLdMemVx_eq (x : Reg) :
    execLdMemVx x s =
      if s.I.toNat + x.toNat ≤ 4095 then .next (s.setMem (s.mem.writeList s.I.toNat (s.regsUpTo x)))
      else raiseHalt .memRange s := checkRange_eq _ _ _

theorem execLdVxMem_eq (x : Reg) :
    execLdVxMem x s =
      if s.I.toNat + x.toNat ≤ 4095 then .next (s.setRegs (s.mem.readList s.I.toNat (x.toNat + 1)))
      else raiseHalt .memRange s := checkRange_eq _ _ _

/-! ### The unknown-opcode policy and host operations -/

/-- The policy halts or only emits a diagnostic, as the configuration says (40_cycle.md rule R95). -/
theorem unknownOpcode_eq :
    unknownOpcode s =
      if s.haltOnUnknown then s.halt .unknownOpcode (some s.cur) (s.PC - 2#16)
      else { s with diags := s.diags ++ [⟨.unknownOpcode, some s.cur, s.PC - 2#16⟩] } := rfl

/-- A host operation happens exactly when it is allowed (60_exceptions.md rule R230). -/
theorem hostStep_eq_next {op : HostOp} :
    hostStep op s = .next t ↔ op.allowed s.runState = true ∧ t = op.effect s := by
  unfold hostStep
  split
  · next h => exact ⟨fun e => ⟨h, (Host.Outcome.next.inj e).symm⟩, fun e => congrArg _ e.2.symm⟩
  · next h => exact ⟨fun e => (by cases e), fun e => absurd e.1 h⟩

end Sys2Proof.Machine
end

