-- ==== Sys2Proof/Tests/Slice0.lean ====
section
/-! SUPPORT. Small tests. Expected values come from the spec: the encodings of 30_encoding.md and the rows of
95_test_vectors.md (their ids stand beside the tests). Then, for every statement with hypotheses, concrete values
that meet them together, at the ends of their ranges. -/

open Sys2Proof Sys2Proof.Machine

namespace Sys2Proof.Tests

/-! ### Well-formedness: the check refuses a SYS term that has no word of its own -/

theorem test_wf_refuses_sys_0E0 : Instr.wf (.sys 0x0E0) = false := by decide
theorem test_wf_refuses_sys_0EE : Instr.wf (.sys 0x0EE) = false := by decide
theorem test_wf_accepts_sys_0E1 : Instr.wf (.sys 0x0E1) = true := by decide

/-! ### Decoding: one word per constructor, written from its layout -/

theorem test_decode_sys : decode 0x0123 = .ok (.sys 0x123) := by decide
theorem test_decode_sys_00E1 : decode 0x00E1 = .ok (.sys 0x0E1) := by decide
theorem test_decode_cls : decode 0x00E0 = .ok .cls := by decide
theorem test_decode_ret : decode 0x00EE = .ok .ret := by decide
theorem test_decode_jp : decode 0x1ABC = .ok (.jp 0xABC) := by decide
theorem test_decode_call : decode 0x2456 = .ok (.call 0x456) := by decide
theorem test_decode_seImm : decode 0x3342 = .ok (.seImm 3 0x42) := by decide
theorem test_decode_sneImm : decode 0x4342 = .ok (.sneImm 3 0x42) := by decide
theorem test_decode_seReg : decode 0x5123 = .ok (.seReg 1 2 3) := by decide
theorem test_decode_ldImm : decode 0x6AFF = .ok (.ldImm 0xA 0xFF) := by decide
theorem test_decode_addImm : decode 0x7501 = .ok (.addImm 5 0x01) := by decide
theorem test_decode_ldReg : decode 0x8120 = .ok (.ldReg 1 2) := by decide
theorem test_decode_orReg : decode 0x8121 = .ok (.orReg 1 2) := by decide
theorem test_decode_andReg : decode 0x8122 = .ok (.andReg 1 2) := by decide
theorem test_decode_xorReg : decode 0x8123 = .ok (.xorReg 1 2) := by decide
theorem test_decode_addReg : decode 0x8124 = .ok (.addReg 1 2) := by decide
theorem test_decode_sub : decode 0x8125 = .ok (.sub 1 2) := by decide
theorem test_decode_shr : decode 0x8126 = .ok (.shr 1 2) := by decide
theorem test_decode_subn : decode 0x8127 = .ok (.subn 1 2) := by decide
theorem test_decode_shl : decode 0x812E = .ok (.shl 1 2) := by decide
theorem test_decode_sneReg : decode 0x912F = .ok (.sneReg 1 2 0xF) := by decide
theorem test_decode_ldI : decode 0xA123 = .ok (.ldI 0x123) := by decide
theorem test_decode_jpV0 : decode 0xB300 = .ok (.jpV0 0x300) := by decide
theorem test_decode_rnd : decode 0xC30F = .ok (.rnd 3 0x0F) := by decide
theorem test_decode_drw : decode 0xD125 = .ok (.drw 1 2 5) := by decide
theorem test_decode_skp : decode 0xE49E = .ok (.skp 4) := by decide
theorem test_decode_sknp : decode 0xE4A1 = .ok (.sknp 4) := by decide
theorem test_decode_ldVxDt : decode 0xF207 = .ok (.ldVxDt 2) := by decide
theorem test_decode_ldVxK : decode 0xF50A = .ok (.ldVxK 5) := by decide
theorem test_decode_ldDtVx : decode 0xF415 = .ok (.ldDtVx 4) := by decide
theorem test_decode_ldStVx : decode 0xF418 = .ok (.ldStVx 4) := by decide
theorem test_decode_addIVx : decode 0xF11E = .ok (.addIVx 1) := by decide
theorem test_decode_ldFVx : decode 0xFA29 = .ok (.ldFVx 0xA) := by decide
theorem test_decode_ldBVx : decode 0xF733 = .ok (.ldBVx 7) := by decide
theorem test_decode_ldMemVx : decode 0xF255 = .ok (.ldMemVx 2) := by decide
theorem test_decode_ldVxMem : decode 0xFF65 = .ok (.ldVxMem 0xF) := by decide
theorem test_decode_unknown_alu : decode 0x8018 = .error (.unknownAlu 0x8018) := by decide
theorem test_decode_unknown_key : decode 0xE19F = .error (.unknownKey 0xE19F) := by decide
theorem test_decode_unknown_misc : decode 0xF0FF = .error (.unknownMisc 0xF0FF) := by decide
theorem test_decode_bytes_truncated : decodeBytes [0x12] = .error .truncated := by decide
theorem test_decode_bytes_big_endian : decodeBytes [0x12, 0x34, 0x56] = .ok (.jp 0x234, [0x56]) := by decide
theorem test_decode_table_word : decodeTableWord 16 0xD125 = some (.drw 1 2 5) := by decide
theorem test_encode_bytes : encodeBytes (.call 0x210) = [0x22, 0x10] := by decide

/-! ### One step -/

/-- The reset state with registers and I set, bytes in memory and a word at PC. -/
def start (regs : List (Reg × Byte)) (i : Word) (mem : Memory) (w : Nat) : State :=
  (regs.foldl (fun (s : State) (r : Reg × Byte) => s.setReg r.1 r.2) { State.reset with I := i, mem := mem }).withFetchWord 16 w

/-- What one reads off the next state, if there is one. -/
def after {α : Type} (r : Result) (f : State → α) : Option α :=
  match r with
  | .next t => some (f t)
  | .fault _ => none
  | .refused _ => none

/-- V41-1. -/
theorem test_sys : after (step (start [] 0 [] 0x0123)) (fun t => (t.PC, t.cur)) = some (0x202, 0x0123) := by decide
/-- V41-3. -/
theorem test_cls : after (step { start [(0xF, 7)] 0 [] 0x00E0 with fb := State.reset.fb.set 5 true })
    (fun t => (t.fb[5], t.PC, t.reg 0xF)) = some (false, 0x202, 7) := by decide
/-- V41-8. -/
theorem test_ret : after (step { start [] 0 [] 0x00EE with SP := 2, stack := State.reset.stack.set 1 0x0A46 })
    (fun t => (t.PC, t.SP)) = some (0x0A46, 1) := by decide
/-- V41-9. -/
theorem test_ret_underflow : after (step (start [] 0 [] 0x00EE)) (fun t => (t.runState, t.haltInfo, t.PC, t.SP)) =
    some (.halted, some ⟨.stackUnderflow, some 0x00EE, 0x200⟩, 0x202, 0) := by decide
/-- V41-4. -/
theorem test_jp : after (step (start [] 0 [] 0x1ABC)) (·.PC) = some 0xABC := by decide
/-- V41-6. -/
theorem test_call : after (step (start [] 0 [] 0x2456)) (fun t => (t.PC, t.SP, t.stack[0])) =
    some (0x456, 1, 0x202) := by decide
/-- V41-7. -/
theorem test_call_overflow : after (step { start [] 0 [] 0x2456 with SP := 12 })
    (fun t => (t.runState, t.haltInfo, t.PC, t.SP, t.stack[11])) =
    some (.halted, some ⟨.stackOverflow, some 0x2456, 0x200⟩, 0x202, 12, 0) := by decide
/-- V42-1. -/
theorem test_seImm : after (step (start [(3, 0x42)] 0 [] 0x3342)) (·.PC) = some 0x204 := by decide
/-- V42-2. -/
theorem test_seImm_ne : after (step (start [(3, 0x41)] 0 [] 0x3342)) (·.PC) = some 0x202 := by decide
/-- V42-3. -/
theorem test_sneImm : after (step (start [(3, 0x42)] 0 [] 0x4342)) (·.PC) = some 0x202 := by decide
/-- V42-8. -/
theorem test_seReg_any_nibble : after (step (start [(1, 7), (2, 7)] 0 [] 0x5123)) (·.PC) = some 0x204 := by decide
/-- V42-6. -/
theorem test_seReg_ne : after (step (start [(1, 7), (2, 8)] 0 [] 0x5120)) (·.PC) = some 0x202 := by decide
/-- V42-9. -/
theorem test_sneReg : after (step (start [(1, 7), (2, 8)] 0 [] 0x9120)) (·.PC) = some 0x204 := by decide
/-- V42-10. -/
theorem test_sneReg_any_nibble : after (step (start [(1, 7), (2, 7)] 0 [] 0x912F)) (·.PC) = some 0x202 := by decide
/-- V42-12. -/
theorem test_ldImm_vf : after (step (start [(0xF, 1)] 0 [] 0x6F00)) (·.reg 0xF) = some 0 := by decide
/-- V42-13. -/
theorem test_addImm_wraps : after (step (start [(5, 0xFF)] 0 [] 0x7501)) (fun t => (t.reg 5, t.reg 0xF)) =
    some (0, 0) := by decide
/-- V8-1. -/
theorem test_ldReg : after (step (start [(1, 0x12), (2, 0x34)] 0 [] 0x8120)) (fun t => (t.reg 1, t.reg 2)) =
    some (0x34, 0x34) := by decide
/-- V8-2. -/
theorem test_orReg : after (step (start [(1, 0xF0), (2, 0x0F), (0xF, 5)] 0 [] 0x8121))
    (fun t => (t.reg 1, t.reg 0xF)) = some (0xFF, 5) := by decide
/-- V8-3. -/
theorem test_andReg : after (step (start [(1, 0xF0), (2, 0x3C)] 0 [] 0x8122)) (·.reg 1) = some 0x30 := by decide
/-- V8-4. -/
theorem test_xorReg : after (step (start [(1, 0xF0), (2, 0x3C)] 0 [] 0x8123)) (·.reg 1) = some 0xCC := by decide
/-- V8-11. -/
theorem test_addReg_vf_destination : after (step (start [(0xF, 0x10), (1, 0xF5)] 0 [] 0x8F14)) (·.reg 0xF) =
    some 1 := by decide
/-- V8-8. -/
theorem test_addReg : after (step (start [(1, 0x7F), (2, 1)] 0 [] 0x8124)) (fun t => (t.reg 1, t.reg 0xF)) =
    some (0x80, 0) := by decide
/-- V8-14. -/
theorem test_sub_borrow : after (step (start [(1, 3), (2, 5)] 0 [] 0x8125)) (fun t => (t.reg 1, t.reg 0xF)) =
    some (0xFE, 0) := by decide
/-- V8-15. -/
theorem test_sub_equal : after (step (start [(1, 7), (2, 7)] 0 [] 0x8125)) (fun t => (t.reg 1, t.reg 0xF)) =
    some (0, 1) := by decide
/-- V8-20. -/
theorem test_shr : after (step (start [(1, 5), (2, 0xAA)] 0 [] 0x8126)) (fun t => (t.reg 1, t.reg 0xF, t.reg 2)) =
    some (2, 1, 0xAA) := by decide
/-- V8-22. -/
theorem test_shr_vf : after (step (start [(0xF, 1)] 0 [] 0x8F06)) (·.reg 0xF) = some 1 := by decide
/-- V8-17. -/
theorem test_subn : after (step (start [(1, 3), (2, 5)] 0 [] 0x8127)) (fun t => (t.reg 1, t.reg 0xF)) =
    some (2, 1) := by decide
/-- V8-18. -/
theorem test_subn_borrow : after (step (start [(1, 5), (2, 3)] 0 [] 0x8127)) (fun t => (t.reg 1, t.reg 0xF)) =
    some (0xFE, 0) := by decide
/-- V8-23. -/
theorem test_shl : after (step (start [(1, 0x81)] 0 [] 0x810E)) (fun t => (t.reg 1, t.reg 0xF)) =
    some (2, 1) := by decide
/-- V8-24. -/
theorem test_shl_no_carry : after (step (start [(1, 0x40), (2, 1)] 0 [] 0x812E))
    (fun t => (t.reg 1, t.reg 0xF, t.reg 2)) = some (0x80, 0, 1) := by decide
/-- V44-1. -/
theorem test_ldI : after (step (start [] 0 [] 0xA123)) (·.I) = some 0x123 := by decide
/-- V44-4. -/
theorem test_jpV0_unmasked : after (step (start [(0, 0xFF)] 0 [] 0xBFFF)) (·.PC) = some 0x10FE := by decide
/-- V44-6: any random byte masked with 0. -/
theorem test_rnd_mask_zero : after (exec (.rnd 3 0) (start [(3, 9)] 0 [] 0xC300)) (fun t => (t.reg 3, t.draws)) =
    some (0, 1) := by
  simp only [after, exec, execRnd]
  simp
  decide
/-- V44-9. -/
theorem test_drw_start_wraps : after (step (start [(1, 0x40), (2, 0x20)] 0x300 [(0x300, 0xFF)] 0xD121))
    (fun t => (t.fb[0], t.fb[7], t.fb[8], t.reg 0xF)) = some (true, true, false, 0) := by decide +kernel
/-- V44-15. -/
theorem test_drw_vf_coordinate : after (step (start [(0xF, 2)] 0x300 [(0x300, 0x80)] 0xDF11))
    (fun t => (t.fb[0], t.fb[2], t.reg 0xF)) = some (false, true, 0) := by decide +kernel
/-- V44-14. -/
theorem test_drw_range_covers_clipped_rows : after (step (start [(2, 0x1F)] 0xFFE [] 0xD123))
    (fun t => (t.haltInfo, t.PC)) = some (some ⟨.memRange, some 0xD123, 0x200⟩, 0x202) := by decide
/-- V45-1. -/
theorem test_skp : after (step { start [(1, 3)] 0 [] 0xE19E with key := State.reset.key.set 3 true }) (·.PC) =
    some 0x204 := by decide
/-- V45-5. -/
theorem test_skp_range : after (step (start [(1, 0x10)] 0 [] 0xE19E)) (fun t => (t.haltInfo, t.PC)) =
    some (some ⟨.keyRange, some 0xE19E, 0x200⟩, 0x202) := by decide
/-- V45-3. -/
theorem test_sknp : after (step { start [(1, 3)] 0 [] 0xE1A1 with key := State.reset.key.set 3 true }) (·.PC) =
    some 0x202 := by decide
/-- V45-4. -/
theorem test_sknp_up : after (step (start [(1, 0xF)] 0 [] 0xE1A1)) (·.PC) = some 0x204 := by decide
/-- V45-7. -/
theorem test_ldVxDt : after (step { start [] 0 [] 0xF207 with DT := 0x3C }) (·.reg 2) = some 0x3C := by decide
/-- V45-8. -/
theorem test_ldVxK_waits : after (step (start [(5, 8)] 0 [] 0xF50A)) (fun t => (t.PC, t.reg 5)) =
    some (0x200, 8) := by decide
/-- V45-9. -/
theorem test_ldVxK_lowest : after (step { start [] 0 [] 0xF50A with key := (State.reset.key.set 3 true).set 9 true })
    (fun t => (t.PC, t.reg 5)) = some (0x202, 3) := by decide
/-- V45-11. -/
theorem test_ldDtVx : after (step (start [(4, 5)] 0 [] 0xF415)) (·.DT) = some 5 := by decide
/-- V45-12. -/
theorem test_ldStVx : after (step { start [] 0 [] 0xF418 with ST := 9 }) (fun t => (t.ST, t.soundActive)) =
    some (0, false) := by decide
/-- V45-13. -/
theorem test_addIVx : after (step (start [(1, 1)] 0x0FFF [] 0xF11E)) (fun t => (t.I, t.reg 0xF)) =
    some (0x1000, 0) := by decide
/-- V45-14. -/
theorem test_addIVx_wraps : after (step (start [(1, 1)] 0xFFFF [] 0xF11E)) (·.I) = some 0 := by decide
/-- V45-20. -/
theorem test_ldFVx : after (step (start [(0xA, 0x0A)] 0 [] 0xFA29)) (·.I) = some 0x032 := by decide
/-- V45-22. -/
theorem test_ldFVx_whole_byte : after (step (start [(0xA, 0xFF)] 0 [] 0xFA29)) (·.I) = some 0x4FB := by decide
/-- V45-16. -/
theorem test_ldBVx : after (step (start [(7, 255)] 0x300 [] 0xF733))
    (fun t => (t.readByte 0x300, t.readByte 0x301, t.readByte 0x302, t.I)) = some (2, 5, 5, 0x300) := by decide
/-- V45-19. -/
theorem test_ldBVx_range : after (step (start [(7, 123)] 0xFFE [] 0xF733))
    (fun t => (t.haltInfo, t.readByte 0xFFE)) = some (some ⟨.memRange, some 0xF733, 0x200⟩, 0) := by decide
/-- V45-23. -/
theorem test_ldMemVx : after (step (start [(0, 0x11), (1, 0x22), (2, 0x33), (3, 0x44)] 0x300 [] 0xF255))
    (fun t => (t.readByte 0x300, t.readByte 0x302, t.readByte 0x303, t.I)) = some (0x11, 0x33, 0, 0x300) := by decide
/-- V45-28. -/
theorem test_ldMemVx_font_writable : after (step (start [(0, 0xAA)] 0 [] 0xF055))
    (fun t => (t.readByte 0, t.readByte 1)) = some (0xAA, 0x90) := by decide
/-- V45-26, its first and last registers. -/
theorem test_ldVxMem : after (step (start [(0, 9), (0xF, 9)] 0x300 [(0x301, 1), (0x30F, 0xF)] 0xFF65))
    (fun t => (t.reg 0, t.reg 1, t.reg 0xF, t.I)) = some (0, 1, 0xF, 0x300) := by decide
/-- V45-27. -/
theorem test_ldVxMem_range : after (step (start [(3, 7)] 0xFF1 [] 0xFF65)) (fun t => (t.haltInfo, t.reg 3)) =
    some (some ⟨.memRange, some 0xFF65, 0x200⟩, 7) := by decide

/-! ### The cycle, the host, reset -/

/-- V40-1: an odd PC. -/
theorem test_fetch_odd : after (step { State.reset with PC := 0x201, mem := [(0x201, 0x60), (0x202, 0x2A)] })
    (fun t => (t.reg 0, t.PC)) = some (0x2A, 0x203) := by decide
/-- V40-4. -/
theorem test_fetch_range : after (step { State.reset with PC := 0xFFF, cur := 7 })
    (fun t => (t.runState, t.haltInfo, t.PC, t.cur, t.diags)) =
    some (.halted, some ⟨.fetchRange, none, 0xFFF⟩, 0xFFF, 7, [⟨.fetchRange, none, 0xFFF⟩]) := by decide
/-- W7. -/
theorem test_unknown_halts : after (step (start [] 0 [] 0x801F))
    (fun t => (t.runState, t.haltInfo, t.PC, t.cur, t.diags)) =
    some (.halted, some ⟨.unknownOpcode, some 0x801F, 0x200⟩, 0x202, 0x801F,
      [⟨.unknownOpcode, some 0x801F, 0x200⟩]) := by decide
/-- W7, `HALT_ON_UNKNOWN = false`. -/
theorem test_unknown_goes_on : after (step { start [] 0 [] 0x801F with haltOnUnknown := false })
    (fun t => (t.runState, t.haltInfo, t.PC, t.diags)) =
    some (.running, none, 0x202, [⟨.unknownOpcode, some 0x801F, 0x200⟩]) := by decide
/-- V40-9. -/
theorem test_paused_has_no_step : after (step { start [] 0 [] 0x6001 with runState := .paused }) (·.PC) = none := by
  decide
/-- V60-1, the saturating tick. -/
theorem test_tick_delay : after (hostStep .tickDelay { State.reset with DT := 2 }) (·.DT) = some 1 := by decide
theorem test_tick_delay_saturates : after (hostStep .tickDelay State.reset) (·.DT) = some 0 := by decide
/-- V60-2. -/
theorem test_tick_sound : after (hostStep .tickSound { State.reset with ST := 1 }) (fun t => (t.ST, t.soundActive)) =
    some (0, false) := by decide
/-- V60-4. -/
theorem test_quit : after (hostStep .quit { State.reset with PC := 0x204 })
    (fun t => (t.runState, t.haltInfo, t.diags)) = some (.halted, some ⟨.quit, none, 0x204⟩, []) := by decide
/-- V60-5. -/
theorem test_pause_resume : after (runEvents [.host .pause, .host .resume] State.reset) (·.runState) =
    some .running := by decide
/-- V60-6. -/
theorem test_set_key_halted : after (hostStep (.setKey 2 true) { State.reset with runState := .halted })
    (fun t => (t.keyDown 2, t.runState)) = some (true, .halted) := by decide
/-- V70-1 and V70-3, a few bytes. -/
theorem test_create : (create Config.default [0x12, 0x00]).toOption.map
    (fun s => (s.readByte 0x200, s.readByte 0x201, s.readByte 0x32, s.readByte 0x36, s.readByte 0x50, s.PC)) =
    some (0x12, 0, 0xF0, 0x90, 0, 0x200) := by decide +kernel
/-- W6. -/
theorem test_rom_too_large : (create Config.default (List.replicate 3585 0)).toOption.isNone = true := by
  have h : create Config.default (List.replicate 3585 0) = .error .romTooLarge := by
    rw [create, List.length_replicate]; rfl
  rw [h]; rfl

/-! ### Witnesses: the hypotheses of each statement can be met together -/

/-- The state an answer carries. -/
def nextOf (r : Result) : State :=
  match r with
  | .next t => t
  | .fault _ => State.reset
  | .refused _ => State.reset

theorem witness_SecondaryDispatch :
    opHi 0x00E0 = 0x0#4 ∧ opHi 0x0FFF = 0x0#4 ∧
    (opHi 0x8000 = 0x8#4 ∧ opN 0x8000 = 0x0#4) ∧ (opHi 0x8FF1 = 0x8#4 ∧ opN 0x8FF1 = 0x1#4) ∧
    (opHi 0x8002 = 0x8#4 ∧ opN 0x8002 = 0x2#4) ∧ (opHi 0x8003 = 0x8#4 ∧ opN 0x8003 = 0x3#4) ∧
    (opHi 0x8004 = 0x8#4 ∧ opN 0x8004 = 0x4#4) ∧ (opHi 0x8005 = 0x8#4 ∧ opN 0x8005 = 0x5#4) ∧
    (opHi 0x8006 = 0x8#4 ∧ opN 0x8006 = 0x6#4) ∧ (opHi 0x8007 = 0x8#4 ∧ opN 0x8007 = 0x7#4) ∧
    (opHi 0x800E = 0x8#4 ∧ opN 0x800E = 0xE#4) ∧
    (opHi 0x8008 = 0x8#4 ∧ opN 0x8008 ∈ [0x8#4, 0x9#4, 0xA#4, 0xB#4, 0xC#4, 0xD#4, 0xF#4]) ∧
    (opHi 0xE09E = 0xE#4 ∧ opKk 0xE09E = 0x9E#8) ∧ (opHi 0xE0A1 = 0xE#4 ∧ opKk 0xE0A1 = 0xA1#8) ∧
    (opHi 0xE09F = 0xE#4 ∧ opKk 0xE09F ∉ [0x9E#8, 0xA1#8]) ∧
    (opHi 0xF007 = 0xF#4 ∧ opKk 0xF007 = 0x07#8) ∧ (opHi 0xF00A = 0xF#4 ∧ opKk 0xF00A = 0x0A#8) ∧
    (opHi 0xF015 = 0xF#4 ∧ opKk 0xF015 = 0x15#8) ∧ (opHi 0xF018 = 0xF#4 ∧ opKk 0xF018 = 0x18#8) ∧
    (opHi 0xF01E = 0xF#4 ∧ opKk 0xF01E = 0x1E#8) ∧ (opHi 0xF029 = 0xF#4 ∧ opKk 0xF029 = 0x29#8) ∧
    (opHi 0xF033 = 0xF#4 ∧ opKk 0xF033 = 0x33#8) ∧ (opHi 0xF055 = 0xF#4 ∧ opKk 0xF055 = 0x55#8) ∧
    (opHi 0xF065 = 0xF#4 ∧ opKk 0xF065 = 0x65#8) ∧
    (opHi 0xFFFF = 0xF#4 ∧
      opKk 0xFFFF ∉ [0x07#8, 0x0A#8, 0x15#8, 0x18#8, 0x1E#8, 0x29#8, 0x33#8, 0x55#8, 0x65#8]) ∧
    (start [] 0 [] 0x801F).runState = .running ∧ (start [] 0 [] 0x801F).haltOnUnknown = true ∧
    fetchWord (start [] 0 [] 0x801F) = some 0x801F ∧ opHi 0x801F = 0x8#4 ∧ opN 0x801F = 0xF#4 := by decide

theorem witness_SingleOpcodeFamilies :
    opHi 0x1000 = 0x1#4 ∧ opHi 0x2FFF = 0x2#4 ∧ opHi 0x3000 = 0x3#4 ∧ opHi 0x4FFF = 0x4#4 ∧
    opHi 0x500F = 0x5#4 ∧ opHi 0x6000 = 0x6#4 ∧ opHi 0x7FFF = 0x7#4 ∧ opHi 0x900F = 0x9#4 ∧
    opHi 0xA000 = 0xA#4 ∧ opHi 0xBFFF = 0xB#4 ∧ opHi 0xC000 = 0xC#4 ∧ opHi 0xDFFF = 0xD#4 := by decide

theorem witness_DecodeEncodeRoundTrip : (Instr.sys 0x0E1).wf = true ∧ (Instr.seReg 15 15 15).wf = true := by decide

theorem witness_EncodeDecodeRoundTrip : decode 0x5FFF = .ok (.seReg 15 15 15) := by decide

theorem witness_CanonicalMemoryDeterminedByReads :
    Memory.wf [(0, 0), (4095, 1)] ∧ ∀ a, Memory.read [(0, 0), (4095, 1)] a = Memory.read [(0, 0), (4095, 1)] a :=
  ⟨by decide, fun _ => rfl⟩

theorem witness_FetchIsBigEndian : ({ State.reset with PC := 4094 } : State).PC.toNat ≤ 4094 := by decide

/-- Both clauses: a word with a handler and a word without one. -/
theorem witness_StepRunsDecodedInstruction :
    State.reset.runState = .running ∧ (start [] 0 [] 0x1ABC).PC.toNat ≤ 4094 ∧
    (0x1ABC#16).toNat = ((start [] 0 [] 0x1ABC).readByte (start [] 0 [] 0x1ABC).PC.toNat).toNat * 2 ^ 8 +
      ((start [] 0 [] 0x1ABC).readByte ((start [] 0 [] 0x1ABC).PC.toNat + 1)).toNat ∧
    decode 0x1ABC#16 = .ok (.jp 0xABC) ∧
    (0xE000#16).toNat = ((start [] 0 [] 0xE000).readByte (start [] 0 [] 0xE000).PC.toNat).toNat * 2 ^ 8 +
      ((start [] 0 [] 0xE000).readByte ((start [] 0 [] 0xE000).PC.toNat + 1)).toNat ∧
    decode 0xE000#16 = .error (.unknownKey 0xE000) := by decide

theorem witness_PlacedInstructionRunsNext :
    ({ State.reset with PC := 4094 } : State).runState = .running ∧
    ({ State.reset with PC := 4094 } : State).PC.toNat ≤ 4094 ∧
    ({ State.reset with PC := 4094 } : State).mem.wf ∧ (Instr.drw 1 2 5).wf = true := by decide

theorem witness_FetchPastEndHalts :
    ({ State.reset with PC := 4095 } : State).runState = .running ∧
    ({ State.reset with PC := 4095 } : State).PC.toNat > 4094 := by decide

theorem witness_UnknownOpcodePolicy :
    (start [] 0 [] 0xE000).runState = .running ∧ fetchWord (start [] 0 [] 0xE000) = some 0xE000 ∧
    decode 0xE000 = .error (.unknownKey 0xE000) ∧ (start [] 0 [] 0xE000).haltOnUnknown = true ∧
    fetchWord { start [] 0 [] 0xE000 with haltOnUnknown := false } = some 0xE000 := by decide

theorem witness_StepExistsExactlyWhenRunning :
    State.reset.runState = .running ∧ ({ State.reset with runState := .paused } : State).runState = .paused ∧
    ({ State.reset with runState := .halted } : State).runState = .halted := by decide

/-- Both clauses: a halt in a handler and a halt in the fetch; also for `AtMostOneDiagnosticPerStep`. -/
theorem witness_HaltingStepIsAllOrNothing :
    (step (start [] 0 [] 0x00EE) = .next (nextOf (step (start [] 0 [] 0x00EE))) ∧
      (nextOf (step (start [] 0 [] 0x00EE))).runState = .halted ∧ (start [] 0 [] 0x00EE).PC.toNat ≤ 4094) ∧
    (step { State.reset with PC := 4095 } = .next (nextOf (step { State.reset with PC := 4095 })) ∧
      (nextOf (step { State.reset with PC := 4095 })).runState = .halted) :=
  ⟨⟨rfl, rfl, by decide⟩, rfl, rfl⟩

/-- Each halt condition just met, and just not met. -/
theorem witness_HaltsExactlyOnTheListedCauses :
    haltCause .ret State.reset = some .stackUnderflow ∧ haltCause .ret { State.reset with SP := 1 } = none ∧
    haltCause (.call 0) { State.reset with SP := 12 } = some .stackOverflow ∧
    haltCause (.call 0) { State.reset with SP := 11 } = none ∧
    haltCause (.drw 0 0 1) { State.reset with I := 4096 } = some .memRange ∧
    haltCause (.drw 0 0 1) { State.reset with I := 4095 } = none ∧
    haltCause (.drw 0 0 0) { State.reset with I := 0xFFFF } = none ∧
    haltCause (.skp 1) (start [(1, 16)] 0 [] 0) = some .keyRange ∧
    haltCause (.sknp 1) (start [(1, 15)] 0 [] 0) = none ∧
    haltCause (.ldBVx 0) { State.reset with I := 4094 } = some .memRange ∧
    haltCause (.ldBVx 0) { State.reset with I := 4093 } = none ∧
    haltCause (.ldMemVx 15) { State.reset with I := 4081 } = some .memRange ∧
    haltCause (.ldVxMem 15) { State.reset with I := 4080 } = none := by decide

theorem witness_PcAfterEveryOpcode :
    State.reset.PC = 0x1FE#16 + 2#16 ∧ exec (.jp 0x300) State.reset = .next (nextOf (exec (.jp 0x300) State.reset)) ∧
    fetchWord (start [] 0 [] 0xE000) = some 0xE000 ∧ decode 0xE000 = .error (.unknownKey 0xE000) ∧
    step (start [] 0 [] 0xE000) = .next (nextOf (step (start [] 0 [] 0xE000))) ∧
    ({ State.reset with PC := 4095 } : State).PC.toNat > 4094 ∧
    step { State.reset with PC := 4095 } = .next (nextOf (step { State.reset with PC := 4095 })) :=
  ⟨rfl, rfl, by decide, by decide, rfl, by decide, rfl⟩

theorem witness_OnlyListedRegistersAreWritten :
    exec (.addReg 1 2) State.reset = .next (nextOf (exec (.addReg 1 2) State.reset)) ∧
    ¬ mayWriteReg (.addReg 1 2) 2 :=
  ⟨rfl, by unfold mayWriteReg; decide⟩

theorem witness_OnlyStoresWriteMemory :
    exec (.ldMemVx 2) State.reset = .next (nextOf (exec (.ldMemVx 2) State.reset)) ∧
    ¬ mayStore (.ldMemVx 2) State.reset 3 ∧ mayStore (.ldMemVx 2) State.reset 2 :=
  ⟨rfl, by simp [mayStore, State.reset], by simp [mayStore, State.reset]⟩

/-- One instruction for each clause changes the state the clause is about. -/
theorem witness_OtherStateChangesOnlyByItsInstructions :
    after (exec (.ldI 5) State.reset) (fun t => decide (t.I ≠ State.reset.I)) = some true ∧
    after (exec (.call 5) State.reset) (fun t => decide (t.SP ≠ State.reset.SP)) = some true ∧
    after (exec (.ldDtVx 1) (start [(1, 1)] 0 [] 0)) (fun t => decide (t.DT ≠ 0)) = some true ∧
    after (exec (.ldStVx 1) (start [(1, 1)] 0 [] 0)) (fun t => decide (t.ST ≠ 0)) = some true ∧
    after (exec (.drw 0 0 1) State.reset) (fun t => decide (t.fb[0] ≠ State.reset.fb[0])) = some true ∧
    after (exec .ret State.reset) (fun t => decide (t.runState ≠ State.reset.runState ∧
      t.haltInfo ≠ State.reset.haltInfo ∧ t.diags ≠ State.reset.diags)) = some true ∧
    haltCause .ret State.reset = some .stackUnderflow := by
  decide +kernel

theorem witness_SoundTimerIsReadByNoInstruction :
    exec (.ldStVx 1) State.reset = .next (nextOf (exec (.ldStVx 1) State.reset)) ∧
    exec (.ldVxDt 1) State.reset = .next (nextOf (exec (.ldVxDt 1) State.reset)) := ⟨rfl, rfl⟩

theorem witness_SysIsNoOp : (0x0E1 : Addr) ≠ 0x0E0#12 ∧ (0x0E1 : Addr) ≠ 0x0EE#12 := by decide

theorem witness_RetPopsReturnAddress :
    0 < ({ State.reset with SP := 1 } : State).SP.val ∧ 0 < ({ State.reset with SP := 12 } : State).SP.val ∧
    State.reset.SP.val = 0 := by decide

theorem witness_CallPushesAndJumps :
    ({ State.reset with SP := 11 } : State).SP.val < 12 ∧ ({ State.reset with SP := 12 } : State).SP.val = 12 := by
  decide

theorem witness_RetAfterCallResumes :
    ({ State.reset with SP := 11 } : State).SP.val < 12 ∧
    exec (.call 0x300) { State.reset with SP := 11 } = .next (nextOf (exec (.call 0x300) { State.reset with SP := 11 })) ∧
    (nextOf (exec (.call 0x300) { State.reset with SP := 11 })).SP =
      (nextOf (exec (.call 0x300) { State.reset with SP := 11 })).SP := ⟨by decide, rfl, rfl⟩

/-- The clause `x ≠ VF` of `AddSetsCarry`, `SubtractSetsNotBorrow` and `ShiftsMoveBitIntoFlag`. -/
theorem witness_destination_is_not_vf : (0 : Reg) ≠ Reg.vf ∧ (14 : Reg) ≠ Reg.vf := by decide

theorem witness_DrawXorsSpriteAndReportsCollision :
    (0 < (1 : Nibble).toNat ∧ ({ State.reset with I := 4096 } : State).I.toNat + (1 : Nibble).toNat - 1 > 4095) ∧
    ¬ (0 < (15 : Nibble).toNat ∧ ({ State.reset with I := 4081 } : State).I.toNat + (15 : Nibble).toNat - 1 > 4095) ∧
    ¬ (0 < (0 : Nibble).toNat ∧ ({ State.reset with I := 0xFFFF } : State).I.toNat + (0 : Nibble).toNat - 1 > 4095) ∧
    (State.spriteHits { State.reset with fb := State.reset.fb.set 0 true } 0 0 1) ∧
    ¬ State.spriteHits State.reset 0 0 0 := by
  refine ⟨by decide, by decide, by decide, ⟨0, by decide, by decide, by decide⟩, ?_⟩
  rintro ⟨p, -, -, h⟩
  have hn : (0 : Nibble).toNat = 0 := rfl
  simp only [State.spriteAt, hn, Bool.and_eq_true, decide_eq_true_eq] at h
  omega

/-- A first draw on a clear frame and the state after it, for `DoubleDrawRestores` and `SecondDrawAlwaysCollides`. -/
theorem witness_DoubleDrawRestores :
    ((1 : Nibble) = 0#4 ∨ State.reset.I.toNat + (1 : Nibble).toNat - 1 ≤ 4095) ∧
    exec (.drw 0 0 1) State.reset = .next (nextOf (exec (.drw 0 0 1) State.reset)) ∧
    (nextOf (exec (.drw 0 0 1) State.reset)).I = State.reset.I ∧
    (nextOf (exec (.drw 0 0 1) State.reset)).reg 0 = State.reset.reg 0 ∧
    (∀ r, r < (1 : Nibble).toNat → (nextOf (exec (.drw 0 0 1) State.reset)).readByte (State.reset.I.toNat + r) =
      State.reset.readByte (State.reset.I.toNat + r)) ∧
    exec (.drw 0 0 1) (nextOf (exec (.drw 0 0 1) State.reset)) =
      .next (nextOf (exec (.drw 0 0 1) (nextOf (exec (.drw 0 0 1) State.reset)))) :=
  ⟨by decide, rfl, rfl, rfl, fun _ _ => rfl, rfl⟩

theorem witness_KeySkips :
    ((start [(1, 15)] 0 [] 0).reg 1).toNat = (15 : Fin 16).val ∧ ((start [(1, 16)] 0 [] 0).reg 1).toNat > 15 := by
  decide

theorem witness_KeyWaitTakesLowestKey :
    (∀ k, State.reset.keyDown k = false) ∧
    (State.keyDown { State.reset with key := (State.reset.key.set 15 true).set 3 true } 3 = true ∧
      ∀ j, j < (3 : Fin 16) →
        State.keyDown { State.reset with key := (State.reset.key.set 15 true).set 3 true } j = false) := by decide

theorem witness_KeyWaitRepeatsUntilKey :
    (start [] 0 [] 0xF50A).runState = .running ∧ fetchWord (start [] 0 [] 0xF50A) = some 0xF50A ∧
    decode 0xF50A = .ok (.ldVxK 5) ∧ ∀ j, (start [] 0 [] 0xF50A).keyDown j = false := by decide

theorem witness_DecimalDigitsStored :
    ({ State.reset with I := 4094 } : State).I.toNat + 2 > 4095 ∧
    ({ State.reset with I := 4093 } : State).I.toNat + 2 ≤ 4095 ∧
    ({ State.reset with I := 4093 } : State).mem.wf := by decide

/-- Also for `RegistersLoaded`. -/
theorem witness_RegistersStored :
    State.indexAddr { State.reset with I := 4081 } (15 : Reg).toNat > 4095 ∧
    State.indexAddr { State.reset with I := 4080 } (15 : Reg).toNat ≤ 4095 ∧
    ({ State.reset with I := 4080 } : State).mem.wf := by decide

theorem witness_StoreThenLoadRestoresRegisters :
    State.reset.mem.wf ∧ State.reset.indexAddr (2 : Reg).toNat ≤ 4095 ∧
    exec (.ldMemVx 2) State.reset = .next (nextOf (exec (.ldMemVx 2) State.reset)) := ⟨by decide, by decide, rfl⟩

theorem witness_StoredWordIsFetched :
    State.reset.mem.wf ∧ State.indexAddr { State.reset with I := 4080 } (15 : Reg).toNat ≤ 4095 ∧
    (15 : Reg).toNat = (14 : Reg).toNat + 1 ∧ (15 : Reg).toNat ≤ (15 : Reg).toNat := by decide

theorem witness_CreateLoadsTheRom :
    (List.replicate 3585 (0x12 : Byte)).length > 3584 ∧ (List.replicate 3584 (0x12 : Byte)).length ≤ 3584 := by
  rw [List.length_replicate, List.length_replicate]; decide

theorem witness_HaltedIsTerminal :
    ({ State.reset with runState := .halted } : State).runState = .halted ∧
    runEvents [.host .tickDelay, .host (.setKey 3 true)] { State.reset with runState := .halted } =
      .next (nextOf (runEvents [.host .tickDelay, .host (.setKey 3 true)]
        { State.reset with runState := .halted })) := ⟨rfl, rfl⟩

theorem witness_EveryScheduleKeepsInvariant :
    (create Config.default [0x12, 0x00]).toOption.isSome = true ∧
    runEvents [.host (.setKey 3 true), .host .tickDelay, .step] State.reset =
      .next (nextOf (runEvents [.host (.setKey 3 true), .host .tickDelay, .step] State.reset)) := ⟨rfl, rfl⟩

/-- A state inside a subroutine that meets the invariant and steps. -/
theorem witness_StepKeepsInvariant :
    State.Inv { start [] 0 [] 0x00EE with SP := 1, stack := State.reset.stack.set 0 0x206 } ∧
    after (step { start [] 0 [] 0x00EE with SP := 1, stack := State.reset.stack.set 0 0x206 }) (·.PC) =
      some 0x206 := by
  refine ⟨⟨by decide, by decide, fun k v hk hv => ?_, by decide⟩, by decide⟩
  have hk0 : k = 0 := by
    have : k < 1 := hk
    omega
  subst hk0
  have : v = 0x206#16 := (Option.some.inj hv).symm
  subst this
  decide

end Sys2Proof.Tests
end

section
/-! PROOFS. Memory (20_memory.md): the order of the two bytes of a fetched word. -/

namespace Sys2Proof.Machine

/-- Settles O9: up to PC = 4094 the fetch answers `wordOfBytes` of the bytes at PC and PC + 1, whose value has the
first byte as its high half. -/
theorem fetchIsBigEndian : Obligations.FetchIsBigEndian := by
  intro s hpc
  exact ⟨_, fetchWord_eq_some hpc, wordOfBytes_toNat (s.readByte s.PC.toNat) (s.readByte (s.PC.toNat + 1))⟩

end Sys2Proof.Machine
end

section
/-! PROOFS. Dispatch (30_encoding.md section 4): the four families with a secondary selector. -/

namespace Sys2Proof

variable {op : Word}

/-! ### Which decoder a family goes to -/

theorem decode_eq_decodeSystem (h : opHi op = 0x0#4) : decode op = .ok (decodeSystem op) := by simp [decode, h]

theorem decode_eq_decodeAlu (h : opHi op = 0x8#4) : decode op = decodeAlu op := by simp [decode, h]

theorem decode_eq_decodeKey (h : opHi op = 0xE#4) : decode op = decodeKey op := by simp [decode, h]

theorem decode_eq_decodeMisc (h : opHi op = 0xF#4) : decode op = decodeMisc op := by simp [decode, h]

/-! ### What each selector gives -/

/-- Family 8 on `n`, with the seven selectors of no instruction (30_encoding.md rule R77). -/
theorem decode_alu (h : opHi op = 0x8#4) :
    (opN op = 0x0#4 → decode op = .ok (.ldReg (opX op) (opY op))) ∧
    (opN op = 0x1#4 → decode op = .ok (.orReg (opX op) (opY op))) ∧
    (opN op = 0x2#4 → decode op = .ok (.andReg (opX op) (opY op))) ∧
    (opN op = 0x3#4 → decode op = .ok (.xorReg (opX op) (opY op))) ∧
    (opN op = 0x4#4 → decode op = .ok (.addReg (opX op) (opY op))) ∧
    (opN op = 0x5#4 → decode op = .ok (.sub (opX op) (opY op))) ∧
    (opN op = 0x6#4 → decode op = .ok (.shr (opX op) (opY op))) ∧
    (opN op = 0x7#4 → decode op = .ok (.subn (opX op) (opY op))) ∧
    (opN op = 0xE#4 → decode op = .ok (.shl (opX op) (opY op))) ∧
    (opN op ∈ [0x8#4, 0x9#4, 0xA#4, 0xB#4, 0xC#4, 0xD#4, 0xF#4] → decode op = .error (.unknownAlu op)) := by
  rw [decode_eq_decodeAlu h]
  refine ⟨?_, ?_, ?_, ?_, ?_, ?_, ?_, ?_, ?_, fun hn => ?unknown⟩
  case unknown =>
    simp only [List.mem_cons, List.not_mem_nil, or_false] at hn
    rcases hn with hn | hn | hn | hn | hn | hn | hn <;> simp [decodeAlu, hn]
  all_goals
    intro hn
    simp [decodeAlu, hn]

/-- Family E on `kk` (30_encoding.md rule R78). -/
theorem decode_key (h : opHi op = 0xE#4) :
    (opKk op = 0x9E#8 → decode op = .ok (.skp (opX op))) ∧
    (opKk op = 0xA1#8 → decode op = .ok (.sknp (opX op))) ∧
    (opKk op ∉ [0x9E#8, 0xA1#8] → decode op = .error (.unknownKey op)) := by
  rw [decode_eq_decodeKey h]
  refine ⟨?_, ?_, fun hk => ?unknown⟩
  case unknown =>
    simp only [List.mem_cons, List.not_mem_nil, or_false, not_or] at hk
    simp [decodeKey, hk]
  all_goals
    intro hk
    simp [decodeKey, hk]

/-- Family F on `kk` (30_encoding.md rule R79). -/
theorem decode_misc (h : opHi op = 0xF#4) :
    (opKk op = 0x07#8 → decode op = .ok (.ldVxDt (opX op))) ∧
    (opKk op = 0x0A#8 → decode op = .ok (.ldVxK (opX op))) ∧
    (opKk op = 0x15#8 → decode op = .ok (.ldDtVx (opX op))) ∧
    (opKk op = 0x18#8 → decode op = .ok (.ldStVx (opX op))) ∧
    (opKk op = 0x1E#8 → decode op = .ok (.addIVx (opX op))) ∧
    (opKk op = 0x29#8 → decode op = .ok (.ldFVx (opX op))) ∧
    (opKk op = 0x33#8 → decode op = .ok (.ldBVx (opX op))) ∧
    (opKk op = 0x55#8 → decode op = .ok (.ldMemVx (opX op))) ∧
    (opKk op = 0x65#8 → decode op = .ok (.ldVxMem (opX op))) ∧
    (opKk op ∉ [0x07#8, 0x0A#8, 0x15#8, 0x18#8, 0x1E#8, 0x29#8, 0x33#8, 0x55#8, 0x65#8] →
      decode op = .error (.unknownMisc op)) := by
  rw [decode_eq_decodeMisc h]
  refine ⟨?_, ?_, ?_, ?_, ?_, ?_, ?_, ?_, ?_, fun hk => ?unknown⟩
  case unknown =>
    simp only [List.mem_cons, List.not_mem_nil, or_false, not_or] at hk
    simp [decodeMisc, hk]
  all_goals
    intro hk
    simp [decodeMisc, hk]

namespace Machine

/-- With `HALT_ON_UNKNOWN` a fetched word that decodes to nothing ends the step Halted (40_cycle.md rule R95). -/
theorem step_of_unknown_halts {s : State} {e : DecodeError} (hr : s.runState = .running)
    (hu : s.haltOnUnknown = true) (hf : fetchWord s = some op) (hd : decode op = .error e) :
    ∃ t, step s = .next t ∧ t.runState = .halted :=
  ⟨_, step_of_unknown hr hf hd, by simp [unknownOpcode_eq, hu]⟩

/-- Settles O2: each family's selectors one by one, and 8XYF as a word that decodes to nothing. -/
theorem secondaryDispatch : Obligations.SecondaryDispatch := by
  refine ⟨fun op => ?_, fun s op hr hu hf h8 hn => ?_⟩
  · have families := And.intro (@decode_eq_decodeSystem op) <| And.intro (@decode_alu op) <|
      And.intro (@decode_key op) (@decode_misc op)
    simpa only [decodeSystem, imp_and, and_assoc] using families
  · obtain ⟨-, -, -, -, -, -, -, -, -, unknown⟩ := decode_alu h8
    exact step_of_unknown_halts hr hu hf (unknown (by simp [hn]))

end Machine
end Sys2Proof
end

section
/-! PROOFS. Cycle (40_cycle.md): the fields that decode reads off the fetched word. -/

namespace Sys2Proof

/-- Settles O1: the value of each field (30_encoding.md rule R71) as the quotient and remainder of the word's value. -/
theorem wordFieldsAreItsBits : Obligations.WordFieldsAreItsBits := fun op =>
  ⟨opHi_toNat op, opNnn_toNat op, opX_toNat op, opY_toNat op, opKk_toNat op, opN_toNat op⟩

end Sys2Proof
end

section
/-! PROOFS. Flow (41_flow.md): the three opcodes of it that use no call stack, 0NNN, 00E0 and 1NNN. -/

namespace Sys2Proof

/-! ### Their words -/

/-- Family 0 reads a word as SYS once its address field is that of neither fixed word (30_encoding.md rule R76). -/
theorem decode_packNNN_sys {nnn : Addr} (hcls : nnn ≠ 0x0E0#12) (hret : nnn ≠ 0x0EE#12) :
    decode (packNNN 0x0#4 nnn) = .ok (.sys nnn) := by
  have notCls : packNNN 0x0#4 nnn ≠ 0x00E0#16 := mt (packNNN_zero_eq nnn 0x0E0#12).mp hcls
  have notRet : packNNN 0x0#4 nnn ≠ 0x00EE#16 := mt (packNNN_zero_eq nnn 0x0EE#12).mp hret
  rw [decode_eq_decodeSystem (opHi_packNNN _ _), decodeSystem, if_neg notCls, if_neg notRet, opNnn_packNNN]

theorem decode_packNNN_jp (nnn : Addr) : decode (packNNN 0x1#4 nnn) = .ok (.jp nnn) := by simp [decode]

namespace Machine

/-! ### Their meanings -/

theorem exec_sys (nnn : Addr) (s : State) : exec (.sys nnn) s = .next s := rfl

theorem exec_cls (s : State) : exec .cls s = .next (s.setFb clearFb) := rfl

theorem exec_jp (nnn : Addr) (s : State) : exec (.jp nnn) s = .next (s.setPC (zext16 nnn)) := rfl

/-! ### What they change -/

theorem getElem?_clearFb {p : Nat} (hp : p < 2048) : clearFb[p]? = some false := by simp [clearFb, hp]

theorem onlyPC_setPC (s : State) (v : Word) : OnlyPC s (s.setPC v) := ⟨rfl, s.setPC_readByte v⟩

/-- Settles O23: SYS answers the state it is given, so neither `HALT_ON_UNKNOWN` nor anything else is read. -/
theorem sysIsNoOp : Obligations.SysIsNoOp := fun nnn s => ⟨decode_packNNN_sys, exec_sys nnn s⟩

/-- Settles O24: the framebuffer is replaced by the one with every pixel off. -/
theorem clsClearsEveryPixel : Obligations.ClsClearsEveryPixel := by
  intro s
  have hdecode : decode 0x00E0#16 = .ok .cls := by decide
  exact ⟨hdecode, _, exec_cls s, fun _ => getElem?_clearFb, rfl, s.setFb_readByte clearFb⟩

/-- Settles O26: JP writes the zero-extended address to PC, which has the value of `nnn`. -/
theorem jpSetsPc : Obligations.JpSetsPc := fun nnn s =>
  ⟨decode_packNNN_jp nnn, _, exec_jp nnn s, zext16_toNat nnn, onlyPC_setPC s (zext16 nnn)⟩

end Machine
end Sys2Proof
end

section
/-! PROOFS. Skips and immediates (42_skip_imm.md): the four opcodes of it with an immediate byte. -/

namespace Sys2Proof

variable (x : Reg) (kk : Byte)

/-! ### Their words -/

theorem decode_packXKK_seImm : decode (packXKK 0x3#4 x kk) = .ok (.seImm x kk) := by simp [decode]

theorem decode_packXKK_sneImm : decode (packXKK 0x4#4 x kk) = .ok (.sneImm x kk) := by simp [decode]

theorem decode_packXKK_ldImm : decode (packXKK 0x6#4 x kk) = .ok (.ldImm x kk) := by simp [decode]

theorem decode_packXKK_addImm : decode (packXKK 0x7#4 x kk) = .ok (.addImm x kk) := by simp [decode]

namespace Machine

variable (s : State)

/-! ### Their meanings -/

theorem exec_seImm : exec (.seImm x kk) s = .next (s.skipIf (s.reg x == kk)) := rfl

theorem exec_sneImm : exec (.sneImm x kk) s = .next (s.skipIf (s.reg x != kk)) := rfl

theorem exec_ldImm : exec (.ldImm x kk) s = .next (s.setReg x kk) := rfl

theorem exec_addImm : exec (.addImm x kk) s = .next (s.setReg x (sum8 (s.reg x) kk)) := rfl

/-! ### What they change -/

theorem State.skipIf_PC (c : Bool) : (s.skipIf c).PC = if c then s.PC + 2#16 else s.PC := by
  rw [s.skipIf_eq, s.setPC_PC]

theorem onlyPC_skipIf (c : Bool) : OnlyPC s (s.skipIf c) := by
  rw [s.skipIf_eq]
  exact onlyPC_setPC s _

theorem onlyRegs_setReg (v : Byte) : OnlyRegs (· = x) s (s.setReg x v) :=
  ⟨rfl, fun _ hr => s.reg_setReg_ne hr v, s.setReg_readByte x v⟩

theorem sum8_toNat (a b : Byte) : (sum8 a b).toNat = (a.toNat + b.toNat) % 2 ^ 8 := by
  rw [sum8_eq, BitVec.toNat_add]

end Machine
end Sys2Proof

namespace Sys2Proof.Machine

/-! ### What the family's statements say -/

/-- Settles O29: both are one conditional skip, on the test `V[x] = kk` and on its negation. -/
theorem skipsOnImmediate : Obligations.SkipsOnImmediate := by
  intro x kk s
  refine ⟨decode_packXKK_seImm x kk, decode_packXKK_sneImm x kk,
    ⟨_, exec_seImm x kk s, ?equal, onlyPC_skipIf s _⟩, ⟨_, exec_sneImm x kk s, ?differ, onlyPC_skipIf s _⟩⟩
  case equal => simp only [s.skipIf_PC, beq_iff_eq]
  case differ => simp only [s.skipIf_PC, bne_iff_ne]

/-- Settles O31: both are one register write, of `kk` and of the sum modulo 2^8; VF is written only as `V[x]`. -/
theorem immediateLoadAndAdd : Obligations.ImmediateLoadAndAdd := by
  intro x kk s
  refine ⟨decode_packXKK_ldImm x kk, decode_packXKK_addImm x kk,
    ⟨_, exec_ldImm x kk s, s.reg_setReg_same x kk, onlyRegs_setReg x s kk⟩,
    ⟨_, exec_addImm x kk s, ?sum, onlyRegs_setReg x s _⟩⟩
  case sum => rw [s.reg_setReg_same, sum8_toNat]

end Sys2Proof.Machine
end

section
/-! PROOFS. Index, offset jump, random byte and drawing (44_index_draw.md): the opcode that loads I, ANNN. -/

namespace Sys2Proof

theorem decode_packNNN_ldI (nnn : Addr) : decode (packNNN 0xA#4 nnn) = .ok (.ldI nnn) := by simp [decode]

namespace Machine

theorem exec_ldI (nnn : Addr) (s : State) : exec (.ldI nnn) s = .next (s.setI (zext16 nnn)) := rfl

theorem onlyI_setI (s : State) (v : Word) : OnlyI s (s.setI v) := ⟨rfl, s.setI_readByte v⟩

/-- Settles O37: ANNN writes the zero-extended address to I, which has the value of `nnn`. -/
theorem loadIndex : Obligations.LoadIndex := fun nnn s =>
  ⟨decode_packNNN_ldI nnn, _, exec_ldI nnn s, zext16_toNat nnn, onlyI_setI s (zext16 nnn)⟩

end Machine
end Sys2Proof
end

section
/-! PROOFS. Keys, timers and memory (45_key_timer_mem.md): the three timer transfers FX07, FX15 and FX18. -/

namespace Sys2Proof

section
variable (x : Reg)

/-! ### Their words -/

theorem decode_packXKK_misc (kk : Byte) : decode (packXKK 0xF#4 x kk) = decodeMisc (packXKK 0xF#4 x kk) :=
  decode_eq_decodeMisc (opHi_packXKK _ _ _)

theorem decode_packXKK_ldVxDt : decode (packXKK 0xF#4 x 0x07#8) = .ok (.ldVxDt x) := by
  simp [decode_packXKK_misc, decodeMisc]

theorem decode_packXKK_ldDtVx : decode (packXKK 0xF#4 x 0x15#8) = .ok (.ldDtVx x) := by
  simp [decode_packXKK_misc, decodeMisc]

theorem decode_packXKK_ldStVx : decode (packXKK 0xF#4 x 0x18#8) = .ok (.ldStVx x) := by
  simp [decode_packXKK_misc, decodeMisc]

namespace Machine

variable (s : State)

/-! ### Their meanings -/

theorem exec_ldVxDt : exec (.ldVxDt x) s = .next (s.setReg x s.DT) := rfl

theorem exec_ldDtVx : exec (.ldDtVx x) s = .next (s.setDT (s.reg x)) := rfl

theorem exec_ldStVx : exec (.ldStVx x) s = .next (s.setST (s.reg x)) := rfl

/-! ### What they change -/

theorem State.setDT_eq (v : Byte) : s.setDT v = { s with DT := v } := rfl

theorem State.setST_eq (v : Byte) : s.setST v = { s with ST := v } := rfl

/-- The sound output is on exactly when the sound timer is not 0 (10_state.md rule R31). -/
theorem State.soundActive_iff : s.soundActive = true ↔ 0 < s.ST.toNat := by
  rw [State.soundActive, decide_eq_true_iff, gt_iff_lt, BitVec.lt_def, BitVec.toNat_zero]

end Machine
end

namespace Machine

/-- Settles O44: FX07 is one register write, FX15 and FX18 one timer write, and the sound output follows the ST that
FX18 leaves. -/
theorem timerTransfers : Obligations.TimerTransfers := by
  intro x s
  refine ⟨decode_packXKK_ldVxDt x, decode_packXKK_ldDtVx x, decode_packXKK_ldStVx x,
    ⟨_, exec_ldVxDt x s, s.reg_setReg_same x s.DT, onlyRegs_setReg x s s.DT⟩,
    ⟨_, exec_ldDtVx x s, s.setDT_eq _, s.setDT_readByte _⟩,
    ⟨_, exec_ldStVx x s, s.setST_eq _, s.setST_readByte _, ?sound⟩⟩
  case sound => rw [State.soundActive_iff, s.setST_ST]

end Machine
end Sys2Proof
end

section
/-! PROOFS. Encoding (30_encoding.md): the word of every instruction decodes to it, and a word that decodes is the
word of its instruction. -/

namespace Sys2Proof

/-! ### The words of the families without a secondary selector -/

section
variable (x y : Reg) (n : Nibble) (kk : Byte) (nnn : Addr)

theorem decode_packNNN_call : decode (packNNN 0x2#4 nnn) = .ok (.call nnn) := by simp [decode]

theorem decode_packNNN_jpV0 : decode (packNNN 0xB#4 nnn) = .ok (.jpV0 nnn) := by simp [decode]

theorem decode_packXKK_rnd : decode (packXKK 0xC#4 x kk) = .ok (.rnd x kk) := by simp [decode]

theorem decode_packXYN_seReg : decode (packXYN 0x5#4 x y n) = .ok (.seReg x y n) := by simp [decode]

theorem decode_packXYN_sneReg : decode (packXYN 0x9#4 x y n) = .ok (.sneReg x y n) := by simp [decode]

theorem decode_packXYN_drw : decode (packXYN 0xD#4 x y n) = .ok (.drw x y n) := by simp [decode]

/-! ### The words of family 8 (R77) -/

theorem decode_packXYN_alu : decode (packXYN 0x8#4 x y n) = decodeAlu (packXYN 0x8#4 x y n) :=
  decode_eq_decodeAlu (opHi_packXYN _ _ _ _)

theorem decode_packXYN_ldReg : decode (packXYN 0x8#4 x y 0x0#4) = .ok (.ldReg x y) := by
  simp [decode_packXYN_alu, decodeAlu]

theorem decode_packXYN_orReg : decode (packXYN 0x8#4 x y 0x1#4) = .ok (.orReg x y) := by
  simp [decode_packXYN_alu, decodeAlu]

theorem decode_packXYN_andReg : decode (packXYN 0x8#4 x y 0x2#4) = .ok (.andReg x y) := by
  simp [decode_packXYN_alu, decodeAlu]

theorem decode_packXYN_xorReg : decode (packXYN 0x8#4 x y 0x3#4) = .ok (.xorReg x y) := by
  simp [decode_packXYN_alu, decodeAlu]

theorem decode_packXYN_addReg : decode (packXYN 0x8#4 x y 0x4#4) = .ok (.addReg x y) := by
  simp [decode_packXYN_alu, decodeAlu]

theorem decode_packXYN_sub : decode (packXYN 0x8#4 x y 0x5#4) = .ok (.sub x y) := by
  simp [decode_packXYN_alu, decodeAlu]

theorem decode_packXYN_shr : decode (packXYN 0x8#4 x y 0x6#4) = .ok (.shr x y) := by
  simp [decode_packXYN_alu, decodeAlu]

theorem decode_packXYN_subn : decode (packXYN 0x8#4 x y 0x7#4) = .ok (.subn x y) := by
  simp [decode_packXYN_alu, decodeAlu]

theorem decode_packXYN_shl : decode (packXYN 0x8#4 x y 0xE#4) = .ok (.shl x y) := by
  simp [decode_packXYN_alu, decodeAlu]

/-! ### The words of families E and F (R78, R79) -/

theorem decode_packXKK_key : decode (packXKK 0xE#4 x kk) = decodeKey (packXKK 0xE#4 x kk) :=
  decode_eq_decodeKey (opHi_packXKK _ _ _)

theorem decode_packXKK_skp : decode (packXKK 0xE#4 x 0x9E#8) = .ok (.skp x) := by
  simp [decode_packXKK_key, decodeKey]

theorem decode_packXKK_sknp : decode (packXKK 0xE#4 x 0xA1#8) = .ok (.sknp x) := by
  simp [decode_packXKK_key, decodeKey]

theorem decode_packXKK_ldVxK : decode (packXKK 0xF#4 x 0x0A#8) = .ok (.ldVxK x) := by
  simp [decode_packXKK_misc, decodeMisc]

theorem decode_packXKK_addIVx : decode (packXKK 0xF#4 x 0x1E#8) = .ok (.addIVx x) := by
  simp [decode_packXKK_misc, decodeMisc]

theorem decode_packXKK_ldFVx : decode (packXKK 0xF#4 x 0x29#8) = .ok (.ldFVx x) := by
  simp [decode_packXKK_misc, decodeMisc]

theorem decode_packXKK_ldBVx : decode (packXKK 0xF#4 x 0x33#8) = .ok (.ldBVx x) := by
  simp [decode_packXKK_misc, decodeMisc]

theorem decode_packXKK_ldMemVx : decode (packXKK 0xF#4 x 0x55#8) = .ok (.ldMemVx x) := by
  simp [decode_packXKK_misc, decodeMisc]

theorem decode_packXKK_ldVxMem : decode (packXKK 0xF#4 x 0x65#8) = .ok (.ldVxMem x) := by
  simp [decode_packXKK_misc, decodeMisc]

end

/-! ### Decoding after encoding -/

theorem decode_cls : decode 0x00E0#16 = .ok .cls := by decide

theorem decode_ret : decode 0x00EE#16 = .ok .ret := by decide

/-- The decoder inverts the encoder, one word layout per constructor. -/
theorem decode_encode {i : Instr} (hi : i.wf = true) : decode (encode i) = .ok i := by
  cases i with
  | sys nnn =>
    obtain ⟨hcls, hret⟩ : nnn ≠ 0x0E0#12 ∧ nnn ≠ 0x0EE#12 := by simpa [Instr.wf] using hi
    exact decode_packNNN_sys hcls hret
  | cls => exact decode_cls
  | ret => exact decode_ret
  | jp nnn => exact decode_packNNN_jp nnn
  | call nnn => exact decode_packNNN_call nnn
  | seImm x kk => exact decode_packXKK_seImm x kk
  | sneImm x kk => exact decode_packXKK_sneImm x kk
  | seReg x y n => exact decode_packXYN_seReg x y n
  | ldImm x kk => exact decode_packXKK_ldImm x kk
  | addImm x kk => exact decode_packXKK_addImm x kk
  | ldReg x y => exact decode_packXYN_ldReg x y
  | orReg x y => exact decode_packXYN_orReg x y
  | andReg x y => exact decode_packXYN_andReg x y
  | xorReg x y => exact decode_packXYN_xorReg x y
  | addReg x y => exact decode_packXYN_addReg x y
  | sub x y => exact decode_packXYN_sub x y
  | shr x y => exact decode_packXYN_shr x y
  | subn x y => exact decode_packXYN_subn x y
  | shl x y => exact decode_packXYN_shl x y
  | sneReg x y n => exact decode_packXYN_sneReg x y n
  | ldI nnn => exact decode_packNNN_ldI nnn
  | jpV0 nnn => exact decode_packNNN_jpV0 nnn
  | rnd x kk => exact decode_packXKK_rnd x kk
  | drw x y n => exact decode_packXYN_drw x y n
  | skp x => exact decode_packXKK_skp x
  | sknp x => exact decode_packXKK_sknp x
  | ldVxDt x => exact decode_packXKK_ldVxDt x
  | ldVxK x => exact decode_packXKK_ldVxK x
  | ldDtVx x => exact decode_packXKK_ldDtVx x
  | ldStVx x => exact decode_packXKK_ldStVx x
  | addIVx x => exact decode_packXKK_addIVx x
  | ldFVx x => exact decode_packXKK_ldFVx x
  | ldBVx x => exact decode_packXKK_ldBVx x
  | ldMemVx x => exact decode_packXKK_ldMemVx x
  | ldVxMem x => exact decode_packXKK_ldVxMem x

/-- Settles O6: the word by `decode_encode`, and the two bytes because they are the word. -/
theorem decodeEncodeRoundTrip : Obligations.DecodeEncodeRoundTrip := by
  intro i hi
  have hword := decode_encode hi
  refine ⟨hword, fun rest => ?_⟩
  show decodeBytes (highByte (encode i) :: lowByte (encode i) :: rest) = .ok (i, rest)
  rw [decodeBytes_word, hword]
  rfl

/-! ### Encoding after decoding -/

section
variable {op : Word} {i : Instr} {h n : Nibble} {kk : Byte}

theorem packNNN_of_fields (hh : opHi op = h) : packNNN h (opNnn op) = op := by
  rw [← hh, packNNN_fields]

theorem packXKK_of_fields (hh : opHi op = h) (hk : opKk op = kk) : packXKK h (opX op) kk = op := by
  rw [← hh, ← hk, packXKK_fields]

theorem packXYN_of_fields (hh : opHi op = h) (hn : opN op = n) : packXYN h (opX op) (opY op) n = op := by
  rw [← hh, ← hn, packXYN_fields]

/-- Family 0: SYS takes neither of the two fixed words (R76). -/
theorem encode_decodeSystem (h0 : opHi op = 0x0#4) :
    (decodeSystem op).wf = true ∧ encode (decodeSystem op) = op := by
  have hop : packNNN 0x0#4 (opNnn op) = op := packNNN_of_fields h0
  unfold decodeSystem
  split_ifs with hcls hret
  · exact ⟨rfl, hcls.symm⟩
  · exact ⟨rfl, hret.symm⟩
  · have hne : opNnn op ≠ 0x0E0#12 ∧ opNnn op ≠ 0x0EE#12 :=
      ⟨fun e => hcls (by rw [← hop, e]; rfl), fun e => hret (by rw [← hop, e]; rfl)⟩
    exact ⟨by simp [Instr.wf, hne], hop⟩

theorem encode_of_decodeAlu (h8 : opHi op = 0x8#4) (hd : decodeAlu op = .ok i) : i.wf = true ∧ encode i = op := by
  unfold decodeAlu at hd
  split_ifs at hd with h0 h1 h2 h3 h4 h5 h6 h7 hE <;> cases hd <;> exact ⟨rfl, packXYN_of_fields h8 ‹_›⟩

theorem encode_of_decodeKey (hE : opHi op = 0xE#4) (hd : decodeKey op = .ok i) : i.wf = true ∧ encode i = op := by
  unfold decodeKey at hd
  split_ifs at hd with h9E hA1 <;> cases hd <;> exact ⟨rfl, packXKK_of_fields hE ‹_›⟩

theorem encode_of_decodeMisc (hF : opHi op = 0xF#4) (hd : decodeMisc op = .ok i) : i.wf = true ∧ encode i = op := by
  unfold decodeMisc at hd
  split_ifs at hd with h07 h0A h15 h18 h1E h29 h33 h55 h65 <;> cases hd <;>
    exact ⟨rfl, packXKK_of_fields hF ‹_›⟩

end

/-- Settles O3: in these families the top nibble alone picks the branch. -/
theorem singleOpcodeFamilies : Obligations.SingleOpcodeFamilies := by
  intro op
  refine ⟨?_, ?_, ?_, ?_, ?_, ?_, ?_, ?_, ?_, ?_, ?_, ?_⟩ <;>
  · intro h
    simp [decode, h]

/-- Settles O7: family by family, the fields of the word are the operands, so packing them gives the word back. -/
theorem encodeDecodeRoundTrip : Obligations.EncodeDecodeRoundTrip := by
  intro op i hd
  obtain ⟨hjp, hcall, hseImm, hsneImm, hseReg, hldImm, haddImm, hsneReg, hldI, hjpV0, hrnd, hdrw⟩ :=
    singleOpcodeFamilies op
  rcases Nibble.cases16 (opHi op) with h | h | h | h | h | h | h | h | h | h | h | h | h | h | h | h
  · rw [decode_eq_decodeSystem h] at hd
    exact Except.ok.inj hd ▸ encode_decodeSystem h
  · cases (hjp h).symm.trans hd
    exact ⟨rfl, packNNN_of_fields h⟩
  · cases (hcall h).symm.trans hd
    exact ⟨rfl, packNNN_of_fields h⟩
  · cases (hseImm h).symm.trans hd
    exact ⟨rfl, packXKK_of_fields h rfl⟩
  · cases (hsneImm h).symm.trans hd
    exact ⟨rfl, packXKK_of_fields h rfl⟩
  · cases (hseReg h).symm.trans hd
    exact ⟨rfl, packXYN_of_fields h rfl⟩
  · cases (hldImm h).symm.trans hd
    exact ⟨rfl, packXKK_of_fields h rfl⟩
  · cases (haddImm h).symm.trans hd
    exact ⟨rfl, packXKK_of_fields h rfl⟩
  · exact encode_of_decodeAlu h (decode_eq_decodeAlu h ▸ hd)
  · cases (hsneReg h).symm.trans hd
    exact ⟨rfl, packXYN_of_fields h rfl⟩
  · cases (hldI h).symm.trans hd
    exact ⟨rfl, packNNN_of_fields h⟩
  · cases (hjpV0 h).symm.trans hd
    exact ⟨rfl, packNNN_of_fields h⟩
  · cases (hrnd h).symm.trans hd
    exact ⟨rfl, packXKK_of_fields h rfl⟩
  · cases (hdrw h).symm.trans hd
    exact ⟨rfl, packXYN_of_fields h rfl⟩
  · exact encode_of_decodeKey h (decode_eq_decodeKey h ▸ hd)
  · exact encode_of_decodeMisc h (decode_eq_decodeMisc h ▸ hd)

/-! ### The words that decode to nothing (30_encoding.md section 4) -/

section
variable {op : Word}

theorem decodeAlu_error_iff :
    (∃ e, decodeAlu op = .error e) ↔ (opN op).toNat ∈ [8, 9, 10, 11, 12, 13, 15] := by
  rcases Nibble.cases16 (opN op) with h | h | h | h | h | h | h | h | h | h | h | h | h | h | h | h <;>
    simp [decodeAlu, h]

theorem decodeKey_error_iff :
    (∃ e, decodeKey op = .error e) ↔ opKk op ≠ 0x9E#8 ∧ opKk op ≠ 0xA1#8 := by
  unfold decodeKey
  split_ifs with h9E hA1 <;> simp [*]

theorem decodeMisc_error_iff :
    (∃ e, decodeMisc op = .error e) ↔
      ∀ kk ∈ ([0x07#8, 0x0A#8, 0x15#8, 0x18#8, 0x1E#8, 0x29#8, 0x33#8, 0x55#8, 0x65#8] : List Byte),
        opKk op ≠ kk := by
  unfold decodeMisc
  split_ifs with h07 h0A h15 h18 h1E h29 h33 h55 h65 <;> simp [*]

end

/-- Settles O4: families 8, E and F by their selectors; every word of the other families decodes. -/
theorem unknownWordsAreExactly : Obligations.UnknownWordsAreExactly := by
  intro op
  by_cases h8 : opHi op = 0x8#4
  · simp only [decode_eq_decodeAlu h8, decodeAlu_error_iff]
    simp [h8]
  by_cases hE : opHi op = 0xE#4
  · simp only [decode_eq_decodeKey hE, decodeKey_error_iff]
    simp [hE]
  by_cases hF : opHi op = 0xF#4
  · simp only [decode_eq_decodeMisc hF, decodeMisc_error_iff]
    simp [hF]
  have hok : ∀ e, decode op ≠ .error e := by
    rcases Nibble.cases16 (opHi op) with h | h | h | h | h | h | h | h | h | h | h | h | h | h | h | h <;>
      simp_all [decode]
  simp [hok, h8, hE, hF]

/-- Settles O5: each word is written out, so the decoder computes its instruction. -/
theorem sampleWordsDecode : Obligations.SampleWordsDecode := by
  unfold Obligations.SampleWordsDecode
  decide

end Sys2Proof
end

section
/-! PROOFS. What an instruction answers (60_exceptions.md section 1): the state of its one halt where its halt
condition holds, and otherwise the state `completed` names. The tables of the spec are read off these two answers. -/

namespace Sys2Proof.Machine

/-! ### The state an instruction that does not halt leaves -/

/-- The machine after a return from a live entry: one entry less, PC at the entry popped (41_flow.md rule R112). -/
def State.returned (s : State) : State :=
  { s with SP := ⟨s.SP.val - 1, by omega⟩, PC := s.stack[s.SP.val - 1]?.getD 0 }

/-- The machine after a call into a free slot: PC stored there, one entry more, PC at the target (R114). -/
def State.called (s : State) (nnn : Addr) : State :=
  { s with stack := s.stack.setIfInBounds s.SP.val s.PC, SP := s.SP + 1, PC := zext16 nnn }

/-- The machine after FX0A: back at its word with no key down, else the least key in `V[x]` (R193). -/
def State.keyTaken (s : State) (x : Reg) : State :=
  match s.lowestKey? with
  | none => s.setPC (s.PC - 2#16)
  | some k => s.setReg x (BitVec.ofNat 8 k)

/-- The machine after a draw: the sprite XORed onto the frame, the collision in VF (R174). -/
def State.drawn (s : State) (x y : Reg) (n : Nibble) : State :=
  (s.setFb (s.draw x y n).1).setFlag (s.draw x y n).2

/-! ### The fields a return, a call and a key wait keep -/

section
variable (s : State)

@[simp] theorem State.returned_mem : s.returned.mem = s.mem := rfl
@[simp] theorem State.returned_V : s.returned.V = s.V := rfl
@[simp] theorem State.returned_I : s.returned.I = s.I := rfl
@[simp] theorem State.returned_stack : s.returned.stack = s.stack := rfl
@[simp] theorem State.returned_fb : s.returned.fb = s.fb := rfl
@[simp] theorem State.returned_DT : s.returned.DT = s.DT := rfl
@[simp] theorem State.returned_ST : s.returned.ST = s.ST := rfl
@[simp] theorem State.returned_key : s.returned.key = s.key := rfl
@[simp] theorem State.returned_cur : s.returned.cur = s.cur := rfl
@[simp] theorem State.returned_runState : s.returned.runState = s.runState := rfl
@[simp] theorem State.returned_haltInfo : s.returned.haltInfo = s.haltInfo := rfl
@[simp] theorem State.returned_haltOnUnknown : s.returned.haltOnUnknown = s.haltOnUnknown := rfl
@[simp] theorem State.returned_draws : s.returned.draws = s.draws := rfl
@[simp] theorem State.returned_diags : s.returned.diags = s.diags := rfl
@[simp] theorem State.returned_reg (r : Reg) : s.returned.reg r = s.reg r := rfl
@[simp] theorem State.returned_readByte (a : Nat) : s.returned.readByte a = s.readByte a := rfl

@[simp] theorem State.called_mem (nnn : Addr) : (s.called nnn).mem = s.mem := rfl
@[simp] theorem State.called_V (nnn : Addr) : (s.called nnn).V = s.V := rfl
@[simp] theorem State.called_I (nnn : Addr) : (s.called nnn).I = s.I := rfl
@[simp] theorem State.called_fb (nnn : Addr) : (s.called nnn).fb = s.fb := rfl
@[simp] theorem State.called_DT (nnn : Addr) : (s.called nnn).DT = s.DT := rfl
@[simp] theorem State.called_ST (nnn : Addr) : (s.called nnn).ST = s.ST := rfl
@[simp] theorem State.called_key (nnn : Addr) : (s.called nnn).key = s.key := rfl
@[simp] theorem State.called_cur (nnn : Addr) : (s.called nnn).cur = s.cur := rfl
@[simp] theorem State.called_runState (nnn : Addr) : (s.called nnn).runState = s.runState := rfl
@[simp] theorem State.called_haltInfo (nnn : Addr) : (s.called nnn).haltInfo = s.haltInfo := rfl
@[simp] theorem State.called_haltOnUnknown (nnn : Addr) : (s.called nnn).haltOnUnknown = s.haltOnUnknown := rfl
@[simp] theorem State.called_draws (nnn : Addr) : (s.called nnn).draws = s.draws := rfl
@[simp] theorem State.called_diags (nnn : Addr) : (s.called nnn).diags = s.diags := rfl
@[simp] theorem State.called_reg (nnn : Addr) (r : Reg) : (s.called nnn).reg r = s.reg r := rfl
@[simp] theorem State.called_readByte (nnn : Addr) (a : Nat) : (s.called nnn).readByte a = s.readByte a := rfl

/-- The key wait writes PC or one register. -/
theorem State.keyTaken_eq (x : Reg) :
    s.keyTaken x = { s with V := (s.keyTaken x).V, PC := (s.keyTaken x).PC } := by
  unfold State.keyTaken
  cases s.lowestKey? <;> rfl

@[simp] theorem State.keyTaken_mem (x : Reg) : (s.keyTaken x).mem = s.mem := by rw [s.keyTaken_eq]
@[simp] theorem State.keyTaken_I (x : Reg) : (s.keyTaken x).I = s.I := by rw [s.keyTaken_eq]
@[simp] theorem State.keyTaken_stack (x : Reg) : (s.keyTaken x).stack = s.stack := by rw [s.keyTaken_eq]
@[simp] theorem State.keyTaken_SP (x : Reg) : (s.keyTaken x).SP = s.SP := by rw [s.keyTaken_eq]
@[simp] theorem State.keyTaken_fb (x : Reg) : (s.keyTaken x).fb = s.fb := by rw [s.keyTaken_eq]
@[simp] theorem State.keyTaken_DT (x : Reg) : (s.keyTaken x).DT = s.DT := by rw [s.keyTaken_eq]
@[simp] theorem State.keyTaken_ST (x : Reg) : (s.keyTaken x).ST = s.ST := by rw [s.keyTaken_eq]
@[simp] theorem State.keyTaken_key (x : Reg) : (s.keyTaken x).key = s.key := by rw [s.keyTaken_eq]
@[simp] theorem State.keyTaken_cur (x : Reg) : (s.keyTaken x).cur = s.cur := by rw [s.keyTaken_eq]
@[simp] theorem State.keyTaken_runState (x : Reg) : (s.keyTaken x).runState = s.runState := by rw [s.keyTaken_eq]
@[simp] theorem State.keyTaken_haltInfo (x : Reg) : (s.keyTaken x).haltInfo = s.haltInfo := by rw [s.keyTaken_eq]
@[simp] theorem State.keyTaken_haltOnUnknown (x : Reg) : (s.keyTaken x).haltOnUnknown = s.haltOnUnknown := by rw [s.keyTaken_eq]
@[simp] theorem State.keyTaken_draws (x : Reg) : (s.keyTaken x).draws = s.draws := by rw [s.keyTaken_eq]
@[simp] theorem State.keyTaken_diags (x : Reg) : (s.keyTaken x).diags = s.diags := by rw [s.keyTaken_eq]
@[simp] theorem State.keyTaken_readByte (x : Reg) (a : Nat) : (s.keyTaken x).readByte a = s.readByte a := by
  rw [s.keyTaken_eq]; rfl

end

/-- The state an instruction whose halt condition does not hold leaves. -/
def completed (i : Instr) (s : State) : State :=
  match i with
  | .sys _ => s
  | .cls => s.setFb clearFb
  | .ret => s.returned
  | .jp nnn => s.setPC (zext16 nnn)
  | .call nnn => s.called nnn
  | .seImm x kk => s.skipIf (s.reg x == kk)
  | .sneImm x kk => s.skipIf (s.reg x != kk)
  | .seReg x y _ => s.skipIf (s.reg x == s.reg y)
  | .ldImm x kk => s.setReg x kk
  | .addImm x kk => s.setReg x (sum8 (s.reg x) kk)
  | .ldReg x y => s.setReg x (s.reg y)
  | .orReg x y => s.setReg x (s.reg x ||| s.reg y)
  | .andReg x y => s.setReg x (s.reg x &&& s.reg y)
  | .xorReg x y => s.setReg x (s.reg x ^^^ s.reg y)
  | .addReg x y => s.setRegFlag x (sum8 (s.reg x) (s.reg y)) (carryFlag (s.reg x) (s.reg y))
  | .sub x y => s.setRegFlag x (diff8 (s.reg x) (s.reg y)) (notBorrowFlag (s.reg x) (s.reg y))
  | .shr x _ => s.setRegFlag x (s.reg x >>> 1) (lsbFlag (s.reg x))
  | .subn x y => s.setRegFlag x (diff8 (s.reg y) (s.reg x)) (notBorrowFlag (s.reg y) (s.reg x))
  | .shl x _ => s.setRegFlag x (s.reg x <<< 1) (msbFlag (s.reg x))
  | .sneReg x y _ => s.skipIf (s.reg x != s.reg y)
  | .ldI nnn => s.setI (zext16 nnn)
  | .jpV0 nnn => s.setPC (offsetTarget nnn (s.reg 0#4))
  | .rnd x kk => (s.setReg x (Config.randomByte s.draws &&& kk)).nextDraw
  | .drw x y n => s.drawn x y n
  | .skp x => s.skipIf (s.key[(s.reg x).toNat]? == some true)
  | .sknp x => s.skipIf (s.key[(s.reg x).toNat]? == some false)
  | .ldVxDt x => s.setReg x s.DT
  | .ldVxK x => s.keyTaken x
  | .ldDtVx x => s.setDT (s.reg x)
  | .ldStVx x => s.setST (s.reg x)
  | .addIVx x => s.setI (indexSum s.I (s.reg x))
  | .ldFVx x => s.setI (glyphAddr (s.reg x))
  | .ldBVx x => s.setMem (s.mem.writeList s.I.toNat (decimalDigits (s.reg x)))
  | .ldMemVx x => s.setMem (s.mem.writeList s.I.toNat (s.regsUpTo x))
  | .ldVxMem x => s.setRegs (s.mem.readList s.I.toNat (x.toNat + 1))

/-! ### The instructions that can halt -/

section
variable {s : State}

theorem exec_ret_of_pos (h : 0 < s.SP.val) : exec .ret s = .next s.returned := by
  show execRet s = _
  obtain ⟨hempty, -⟩ | ⟨v, u, hpop, hexec⟩ := execRet_cases (s := s)
  · omega
  · obtain ⟨h0, hv, hsp, hu⟩ := s.pop?_eq_some hpop
    have hSP : u.SP = ⟨s.SP.val - 1, by omega⟩ := Fin.ext hsp
    have hlt : s.SP.val - 1 < 12 := by omega
    have hPC : v = s.stack[s.SP.val - 1]?.getD 0 := by simp [hv, hlt]
    rw [hexec, hu, hSP, hPC]
    rfl

theorem exec_ret_of_empty (h : s.SP.val = 0) : exec .ret s = raiseHalt .stackUnderflow s := by
  show execRet s = _
  obtain ⟨-, hexec⟩ | ⟨v, u, hpop, -⟩ := execRet_cases (s := s)
  · exact hexec
  · obtain ⟨hpos, -⟩ := s.pop?_eq_some hpop
    omega

theorem exec_call_of_lt (nnn : Addr) (h : s.SP.val < 12) : exec (.call nnn) s = .next (s.called nnn) := by
  show execCall nnn s = _
  obtain ⟨h12, -⟩ | ⟨u, hpush, hexec⟩ := execCall_cases (s := s) nnn
  · omega
  · obtain ⟨-, hsp, hu, hstack⟩ := s.push?_eq_some hpush
    have hSP : u.SP = s.SP + 1 := by
      apply Fin.ext
      rw [hsp, Fin.val_add_one_of_lt (Fin.lt_def.mpr h)]
    have hst : u.stack = s.stack.setIfInBounds s.SP.val s.PC := by
      ext k hk
      rw [hstack k hk, Vector.getElem_setIfInBounds hk]
      simp only [eq_comm]
    rw [hexec, hu, hSP, hst]
    rfl

theorem exec_call_of_full (nnn : Addr) (h : s.SP.val = 12) : exec (.call nnn) s = raiseHalt .stackOverflow s := by
  show execCall nnn s = _
  obtain ⟨-, hexec⟩ | ⟨u, hpush, -⟩ := execCall_cases (s := s) nnn
  · exact hexec
  · obtain ⟨hlt, -⟩ := s.push?_eq_some hpush
    omega

theorem exec_drw_of_le (x y : Reg) (n : Nibble) (h : ¬ (0 < n.toNat ∧ s.I.toNat + n.toNat - 1 > 4095)) :
    exec (.drw x y n) s = .next (s.drawn x y n) := by
  show execDrw x y n s = _
  rw [execDrw_eq]
  by_cases hn : n = 0#4
  · subst hn
    rfl
  · have hpos : 0 < n.toNat := Nat.pos_of_ne_zero fun e => hn (BitVec.eq_of_toNat_eq e)
    rw [if_neg hn, if_pos (by omega), State.drawn]

theorem exec_drw_of_gt (x y : Reg) {n : Nibble} (h : 0 < n.toNat ∧ s.I.toNat + n.toNat - 1 > 4095) :
    exec (.drw x y n) s = raiseHalt .memRange s := by
  show execDrw x y n s = _
  have hn : n ≠ 0#4 := by
    rintro rfl
    exact absurd h.1 (by decide)
  rw [execDrw_eq, if_neg hn, if_neg (by omega)]

theorem exec_skp_of_key {x : Reg} {k : Fin 16} (h : (s.reg x).toNat = k.val) :
    exec (.skp x) s = .next (s.skipIf (s.keyDown k)) := by
  show execSkp x s = _
  obtain ⟨hgt, -⟩ | ⟨j, hj, hexec⟩ := execSkp_cases (s := s) x
  · omega
  · obtain rfl : j = k := Fin.ext (by omega)
    exact hexec

theorem exec_sknp_of_key {x : Reg} {k : Fin 16} (h : (s.reg x).toNat = k.val) :
    exec (.sknp x) s = .next (s.skipIf (!s.keyDown k)) := by
  show execSknp x s = _
  obtain ⟨hgt, -⟩ | ⟨j, hj, hexec⟩ := execSknp_cases (s := s) x
  · omega
  · obtain rfl : j = k := Fin.ext (by omega)
    exact hexec

theorem exec_skp_of_gt {x : Reg} (h : 15 < (s.reg x).toNat) : exec (.skp x) s = raiseHalt .keyRange s := by
  show execSkp x s = _
  obtain ⟨-, hexec⟩ | ⟨k, hk, -⟩ := execSkp_cases (s := s) x
  · exact hexec
  · omega

theorem exec_sknp_of_gt {x : Reg} (h : 15 < (s.reg x).toNat) : exec (.sknp x) s = raiseHalt .keyRange s := by
  show execSknp x s = _
  obtain ⟨-, hexec⟩ | ⟨k, hk, -⟩ := execSknp_cases (s := s) x
  · exact hexec
  · omega

theorem exec_ldVxK (x : Reg) : exec (.ldVxK x) s = .next (s.keyTaken x) := by
  show execLdVxK x s = _
  unfold State.keyTaken
  obtain ⟨hk, hexec⟩ | ⟨k, hk, hexec⟩ := execLdVxK_cases (s := s) x <;> rw [hexec, hk]

theorem exec_ldBVx (x : Reg) :
    exec (.ldBVx x) s =
      if s.I.toNat + 2 ≤ 4095 then .next (s.setMem (s.mem.writeList s.I.toNat (decimalDigits (s.reg x))))
      else raiseHalt .memRange s := execLdBVx_eq x

theorem exec_ldMemVx (x : Reg) :
    exec (.ldMemVx x) s =
      if s.I.toNat + x.toNat ≤ 4095 then .next (s.setMem (s.mem.writeList s.I.toNat (s.regsUpTo x)))
      else raiseHalt .memRange s := execLdMemVx_eq x

theorem exec_ldVxMem (x : Reg) :
    exec (.ldVxMem x) s =
      if s.I.toNat + x.toNat ≤ 4095 then .next (s.setRegs (s.mem.readList s.I.toNat (x.toNat + 1)))
      else raiseHalt .memRange s := execLdVxMem_eq x

/-- The flag of the key `V[x]` names, as the tables read it. -/
theorem State.key_getElem?_eq_some {x : Reg} {k : Fin 16} (h : (s.reg x).toNat = k.val) (b : Bool) :
    (s.key[(s.reg x).toNat]? == some b) = (s.keyDown k == b) := by
  rw [h]
  simp [State.keyDown]

/-! ### The two answers -/

theorem not_of_ite_some_eq_none {α : Type} {p : Prop} [Decidable p] {a : α}
    (h : (if p then some a else none) = none) : ¬ p := fun hp => by simp [hp] at h

theorem of_ite_some_eq_some {α : Type} {p : Prop} [Decidable p] {a b : α}
    (h : (if p then some a else none) = some b) : p ∧ a = b := by
  obtain ⟨hp, hab⟩ := Option.ite_none_right_eq_some.mp h
  exact ⟨hp, Option.some.inj hab⟩

/-- An instruction whose halt condition does not hold completes. -/
theorem exec_of_haltCause_none {i : Instr} (h : haltCause i s = none) : exec i s = .next (completed i s) := by
  cases i
  case ret =>
    exact exec_ret_of_pos (Nat.pos_of_ne_zero (not_of_ite_some_eq_none h))
  case call nnn =>
    have hne : s.SP.val ≠ 12 := not_of_ite_some_eq_none h
    exact exec_call_of_lt nnn (by omega)
  case drw x y n => exact exec_drw_of_le x y n (not_of_ite_some_eq_none h)
  case skp x =>
    have hle : ¬ (s.reg x).toNat > 15 := not_of_ite_some_eq_none h
    have hk : (s.reg x).toNat = (⟨(s.reg x).toNat, by omega⟩ : Fin 16).val := rfl
    rw [exec_skp_of_key hk, completed, s.key_getElem?_eq_some hk, beq_true]
  case sknp x =>
    have hle : ¬ (s.reg x).toNat > 15 := not_of_ite_some_eq_none h
    have hk : (s.reg x).toNat = (⟨(s.reg x).toNat, by omega⟩ : Fin 16).val := rfl
    rw [exec_sknp_of_key hk, completed, s.key_getElem?_eq_some hk, beq_false]
  case ldVxK x => exact exec_ldVxK x
  case ldBVx x => exact (exec_ldBVx x).trans (if_pos (Nat.le_of_not_gt (not_of_ite_some_eq_none h)))
  case ldMemVx x => exact (exec_ldMemVx x).trans (if_pos (Nat.le_of_not_gt (not_of_ite_some_eq_none h)))
  case ldVxMem x => exact (exec_ldVxMem x).trans (if_pos (Nat.le_of_not_gt (not_of_ite_some_eq_none h)))
  all_goals rfl

/-- An instruction whose halt condition holds halts for that reason. -/
theorem exec_of_haltCause_some {i : Instr} {r : HaltReason} (h : haltCause i s = some r) :
    exec i s = raiseHalt r s := by
  cases i
  case ret =>
    obtain ⟨hempty, rfl⟩ := of_ite_some_eq_some h
    exact exec_ret_of_empty hempty
  case call nnn =>
    obtain ⟨hfull, rfl⟩ := of_ite_some_eq_some h
    exact exec_call_of_full nnn hfull
  case drw x y n =>
    obtain ⟨hgt, rfl⟩ := of_ite_some_eq_some h
    exact exec_drw_of_gt x y hgt
  case skp x =>
    obtain ⟨hgt, rfl⟩ := of_ite_some_eq_some h
    exact exec_skp_of_gt hgt
  case sknp x =>
    obtain ⟨hgt, rfl⟩ := of_ite_some_eq_some h
    exact exec_sknp_of_gt hgt
  case ldBVx x =>
    obtain ⟨hgt, rfl⟩ := of_ite_some_eq_some h
    exact (exec_ldBVx x).trans (if_neg (Nat.not_le_of_gt hgt))
  case ldMemVx x =>
    obtain ⟨hgt, rfl⟩ := of_ite_some_eq_some h
    exact (exec_ldMemVx x).trans (if_neg (Nat.not_le_of_gt hgt))
  case ldVxMem x =>
    obtain ⟨hgt, rfl⟩ := of_ite_some_eq_some h
    exact (exec_ldVxMem x).trans (if_neg (Nat.not_le_of_gt hgt))
  all_goals cases h

/-- Every answer of an instruction: the completed state, or its one halt. -/
theorem exec_eq_next {i : Instr} {t : State} (h : exec i s = .next t) :
    (haltCause i s = none ∧ t = completed i s) ∨
      ∃ r, haltCause i s = some r ∧ t = s.halt r (some s.cur) s.fetchAddr := by
  cases hc : haltCause i s with
  | none =>
    rw [exec_of_haltCause_none hc] at h
    exact .inl ⟨rfl, (Host.Outcome.next.inj h).symm⟩
  | some r =>
    rw [exec_of_haltCause_some hc] at h
    exact .inr ⟨r, rfl, (Host.Outcome.next.inj h).symm⟩

end

/-! ### What no completed instruction changes -/

section
variable (i : Instr) (s : State)

/-- The keypad, the session's setting, the fetched word and the run control. -/
theorem completed_unchanged :
    (completed i s).key = s.key ∧ (completed i s).haltOnUnknown = s.haltOnUnknown ∧ (completed i s).cur = s.cur ∧
      (completed i s).runState = s.runState ∧ (completed i s).haltInfo = s.haltInfo ∧
      (completed i s).diags = s.diags := by
  cases i <;> simp [completed, State.skipIf_eq, State.drawn]

end

/-- Settles O17: an instruction answers `completed`, which leaves the run state and the records alone, exactly where
its halt condition does not hold. -/
theorem haltsExactlyOnTheListedCauses : Obligations.HaltsExactlyOnTheListedCauses := by
  intro i s
  obtain ⟨-, -, -, hrun, hinfo, hdiags⟩ := completed_unchanged i s
  exact ⟨fun h => ⟨_, exec_of_haltCause_none h, hrun, hinfo, hdiags⟩, fun r h => exec_of_haltCause_some h⟩

end Sys2Proof.Machine
end

section
/-! PROOFS. The spec's tables (10_state.md sections 2 and 5 to 9; 20_memory.md section 4): what each instruction may
change, read off the state it completes in; a halt changes none of it. -/

namespace Sys2Proof.Machine

variable {i : Instr} {s t : State}

/-! ### The program counter -/

/-- No key is down, in the terms claims use. -/
theorem State.lowestKey?_eq_none_iff : s.lowestKey? = none ↔ ∀ k : Fin 16, s.keyDown k = false := by
  rw [State.lowestKey?_eq_none]
  exact ⟨fun h k => h k.val k.isLt, fun h j hj => h ⟨j, hj⟩⟩

theorem State.keyTaken_of_none {x : Reg} (h : ∀ k : Fin 16, s.keyDown k = false) :
    s.keyTaken x = s.setPC (s.PC - 2#16) := by
  unfold State.keyTaken
  rw [State.lowestKey?_eq_none_iff.mpr h]

theorem State.keyTaken_of_some {x : Reg} {k : Nat} (h : s.lowestKey? = some k) :
    s.keyTaken x = s.setReg x (BitVec.ofNat 8 k) := by
  unfold State.keyTaken
  rw [h]

theorem State.keyTaken_PC (x : Reg) :
    (s.keyTaken x).PC = if ∀ k : Fin 16, s.keyDown k = false then s.PC - 2#16 else s.PC := by
  split_ifs with h
  · rw [State.keyTaken_of_none h, State.setPC_PC]
  · obtain ⟨k, hk⟩ := Option.ne_none_iff_exists'.mp (mt State.lowestKey?_eq_none_iff.mp h)
    rw [State.keyTaken_of_some hk, State.setReg_PC]

theorem zext16_eq_ofNat (nnn : Addr) : zext16 nnn = BitVec.ofNat 16 nnn.toNat := by
  apply BitVec.eq_of_toNat_eq
  rw [zext16_toNat, BitVec.toNat_ofNat]
  omega

/-- A skip on the fetch address: two more than the advanced PC are four more than the fetch address. -/
theorem State.skipIf_PC_of_fetched {a : Word} (ha : s.PC = a + 2#16) (c : Bool) :
    (s.skipIf c).PC = if c then a + 4#16 else a + 2#16 := by
  rw [State.skipIf_PC, ha, BitVec.add_assoc]
  rfl

/-- The table of 10_state.md rule R28 for an instruction that does not halt. -/
theorem completed_PC {a : Word} (ha : s.PC = a + 2#16) : (completed i s).PC = pcAfter i a s := by
  cases i with
  | jp nnn => exact zext16_eq_ofNat nnn
  | call nnn => exact zext16_eq_ofNat nnn
  | ret => rfl
  | jpV0 nnn => rfl
  | ldVxK x =>
    show (s.keyTaken x).PC = _
    rw [State.keyTaken_PC, ha, BitVec.add_sub_cancel]
    rfl
  | _ => simp [completed, pcAfter, State.skipIf_PC_of_fetched ha, ha, State.drawn]

/-- Settles O18: a completed instruction by `completed_PC`; every halt and the unknown-opcode policy keep PC. -/
theorem pcAfterEveryOpcode : Obligations.PcAfterEveryOpcode := by
  refine ⟨fun i a s t ha h => ?handler, fun s t op e hf hd h => ?unknown, fun s t hpc h => ?fetch⟩
  case handler =>
    obtain ⟨hc, rfl⟩ | ⟨r, hc, rfl⟩ := exec_eq_next h
    · rw [if_pos hc, completed_PC ha]
    · rw [if_neg (by simp [hc]), State.halt_PC, ha]
  case unknown =>
    obtain ⟨hr, -⟩ := step_eq_next h
    cases (step_of_unknown hr hf hd).symm.trans h
    rw [unknownOpcode_eq]
    split_ifs <;> rfl
  case fetch =>
    obtain ⟨-, ⟨-, rfl⟩ | ⟨hle, -⟩⟩ := step_eq_next h
    · rfl
    · omega

/-! ### Registers and memory -/

theorem State.keyTaken_reg_ne {x r : Reg} (h : r ≠ x) : (s.keyTaken x).reg r = s.reg r := by
  unfold State.keyTaken
  cases s.lowestKey? with
  | none => rfl
  | some k => exact s.reg_setReg_ne h _

theorem completed_reg {r : Reg} (h : ¬ mayWriteReg i r) : (completed i s).reg r = s.reg r := by
  cases i with
  | drw x y n => exact (State.reg_setFlag _ _ r).trans (if_neg h)
  | ldVxK x => exact State.keyTaken_reg_ne h
  | ldVxMem x =>
    have hx : ¬ r.toNat < x.toNat + 1 := fun hlt => h (Nat.le_of_lt_succ hlt)
    simp [completed, State.reg_setRegs, hx]
  | _ => simp_all [completed, mayWriteReg, State.skipIf_eq, State.reg_setReg, State.reg_setRegFlag]

/-- Settles O19: a completed instruction by `completed_reg`; a halt writes no register. -/
theorem onlyListedRegistersAreWritten : Obligations.OnlyListedRegistersAreWritten := by
  intro i s t r h hr
  obtain ⟨-, rfl⟩ | ⟨-, -, rfl⟩ := exec_eq_next h
  · exact completed_reg hr
  · rfl

theorem length_decimalDigits (v : Byte) : (decimalDigits v).length = 3 := rfl

theorem completed_readByte {a : Nat} (h : ¬ mayStore i s a) : (completed i s).readByte a = s.readByte a := by
  cases i with
  | ldBVx x =>
    have ha : ¬ (s.I.toNat ≤ a ∧ a ≤ s.I.toNat + 2) := h
    refine Memory.read_writeList_of_not_mem _ _ _ _ fun hin => ha ?_
    rw [length_decimalDigits] at hin
    omega
  | ldMemVx x =>
    have ha : ¬ (s.I.toNat ≤ a ∧ a ≤ s.I.toNat + x.toNat) := h
    refine Memory.read_writeList_of_not_mem _ _ _ _ fun hin => ha ?_
    rw [State.length_regsUpTo] at hin
    omega
  | _ => simp [completed, State.skipIf_eq, State.drawn]

/-- Settles O20: a completed instruction by `completed_readByte`; a halt writes no byte. -/
theorem onlyStoresWriteMemory : Obligations.OnlyStoresWriteMemory := by
  intro i s t a h ha
  obtain ⟨-, rfl⟩ | ⟨-, -, rfl⟩ := exec_eq_next h
  · exact completed_readByte ha
  · rfl

/-! ### The other fields -/

theorem completed_I (h : (completed i s).I ≠ s.I) :
    (∃ nnn, i = .ldI nnn) ∨ (∃ x, i = .addIVx x) ∨ ∃ x, i = .ldFVx x := by
  cases i with
  | ldI nnn => exact .inl ⟨nnn, rfl⟩
  | addIVx x => exact .inr (.inl ⟨x, rfl⟩)
  | ldFVx x => exact .inr (.inr ⟨x, rfl⟩)
  | _ => simp [completed, State.skipIf_eq, State.drawn] at h

theorem completed_callStack (h : (completed i s).stack ≠ s.stack ∨ (completed i s).SP ≠ s.SP) :
    i = .ret ∨ ∃ nnn, i = .call nnn := by
  cases i with
  | ret => exact .inl rfl
  | call nnn => exact .inr ⟨nnn, rfl⟩
  | _ => simp [completed, State.skipIf_eq, State.drawn] at h

theorem completed_fb (h : (completed i s).fb ≠ s.fb) : i = .cls ∨ ∃ x y n, i = .drw x y n := by
  cases i with
  | cls => exact .inl rfl
  | drw x y n => exact .inr ⟨x, y, n, rfl⟩
  | _ => simp [completed, State.skipIf_eq] at h

theorem completed_DT (h : (completed i s).DT ≠ s.DT) : ∃ x, i = .ldDtVx x := by
  cases i with
  | ldDtVx x => exact ⟨x, rfl⟩
  | _ => simp [completed, State.skipIf_eq, State.drawn] at h

theorem completed_ST (h : (completed i s).ST ≠ s.ST) : ∃ x, i = .ldStVx x := by
  cases i with
  | ldStVx x => exact ⟨x, rfl⟩
  | _ => simp [completed, State.skipIf_eq, State.drawn] at h

theorem completed_draws (h : (completed i s).draws ≠ s.draws) : ∃ x kk, i = .rnd x kk := by
  cases i with
  | rnd x kk => exact ⟨x, kk, rfl⟩
  | _ => simp [completed, State.skipIf_eq, State.drawn] at h

/-- Settles O21: field by field for a completed instruction; a halt changes the run state and the records alone. -/
theorem otherStateChangesOnlyByItsInstructions : Obligations.OtherStateChangesOnlyByItsInstructions := by
  intro i s t h
  obtain ⟨-, rfl⟩ | ⟨r, hc, rfl⟩ := exec_eq_next h
  · obtain ⟨hkey, hunknown, hcur, hrun, hinfo, hdiags⟩ := completed_unchanged i s
    exact ⟨hkey, hunknown, hcur, completed_I, completed_callStack, completed_fb, completed_DT, completed_ST,
      completed_draws, fun hchange => by simp [hrun, hinfo, hdiags] at hchange⟩
  · simp [hc]

/-! ### The sound timer is not read -/

theorem haltCause_setST (v : Byte) : haltCause i (s.setST v) = haltCause i s := by
  cases i <;> rfl

theorem State.skipIf_setST (v : Byte) (c : Bool) : (s.setST v).skipIf c = (s.skipIf c).setST v := by
  cases c <;> rfl

theorem State.keyTaken_setST (v : Byte) (x : Reg) : (s.setST v).keyTaken x = (s.keyTaken x).setST v := by
  unfold State.keyTaken State.lowestKey?
  rw [State.setST_key]
  cases s.key.toList.findIdx? id <;> rfl

/-- Every instruction but FX18 does the same whatever ST holds, and keeps ST. -/
theorem completed_setST (v : Byte) (h : ∀ x, i ≠ .ldStVx x) :
    completed i (s.setST v) = (completed i s).setST v := by
  cases i with
  | ldStVx x => exact absurd rfl (h x)
  | ldVxK x => exact State.keyTaken_setST v x
  | seImm x kk => exact State.skipIf_setST v _
  | sneImm x kk => exact State.skipIf_setST v _
  | seReg x y n => exact State.skipIf_setST v _
  | sneReg x y n => exact State.skipIf_setST v _
  | skp x => exact State.skipIf_setST v _
  | sknp x => exact State.skipIf_setST v _
  | _ => rfl

/-- Settles O22: FX18 overwrites ST; every other completed instruction commutes with a write of ST, and so does a
halt. -/
theorem soundTimerIsReadByNoInstruction : Obligations.SoundTimerIsReadByNoInstruction := by
  intro i s t v h
  show exec i (s.setST v) = .next t ∧ _ ∨ exec i (s.setST v) = .next (t.setST v) ∧ _
  obtain ⟨hc, rfl⟩ | ⟨r, hc, rfl⟩ := exec_eq_next h
  · rw [exec_of_haltCause_none ((haltCause_setST v).trans hc)]
    by_cases hi : ∃ x, i = .ldStVx x
    · obtain ⟨x, rfl⟩ := hi
      exact .inl ⟨rfl, x, rfl⟩
    · rw [completed_setST v fun x e => hi ⟨x, e⟩]
      exact .inr ⟨rfl, by_contra fun hne => hi (completed_ST hne)⟩
  · rw [exec_of_haltCause_some ((haltCause_setST v).trans hc)]
    exact .inr ⟨rfl, rfl⟩

end Sys2Proof.Machine
end

section
/-! PROOFS. The instruction cycle (40_cycle.md): what one step does in Running, how it ends, and the two waits at a
word: the word just placed at PC, and FX0A. -/

namespace Sys2Proof.Machine

variable {s t : State} {op : Word}

/-! ### The fetched word -/

/-- The word whose value the two bytes at PC spell is the one the fetch reads (20_memory.md rule R50). -/
theorem fetchWord_of_toNat (hpc : s.PC.toNat ≤ 4094)
    (hop : op.toNat = (s.readByte s.PC.toNat).toNat * 2 ^ 8 + (s.readByte (s.PC.toNat + 1)).toNat) :
    fetchWord s = some op := by
  rw [fetchWord_eq_some hpc, Option.some.injEq]
  exact BitVec.eq_of_toNat_eq ((wordOfBytes_toNat _ _).trans hop.symm)

theorem advancedPC_toNat (hpc : s.PC.toNat ≤ 4094) : (s.PC + 2#16).toNat = s.PC.toNat + 2 := by
  rw [BitVec.toNat_add, BitVec.toNat_ofNat]
  omega

/-- Settles O10: the word is the fetched one, and with or without a handler the step goes on from `State.fetched`. -/
theorem stepRunsDecodedInstruction : Obligations.StepRunsDecodedInstruction := by
  intro s op hr hpc hop
  have hf := fetchWord_of_toNat hpc hop
  refine ⟨advancedPC_toNat hpc, fun i hd => step_of_decode hr hf hd, fun e hd => ⟨_, step_of_unknown hr hf hd, ?_⟩⟩
  rw [unknownOpcode_eq]
  split_ifs <;> exact ⟨rfl, rfl⟩

/-- Settles O12: past 4094 there is no word, and the step is the fetch halt. -/
theorem fetchPastEndHalts : Obligations.FetchPastEndHalts := fun _ hr hpc =>
  step_of_fetch_none hr (fetchWord_eq_none.mpr hpc)

theorem unknownOpcode_of_halt (hu : s.haltOnUnknown = true) :
    unknownOpcode s = s.halt .unknownOpcode (some s.cur) s.fetchAddr := if_pos hu

theorem unknownOpcode_of_goOn (hu : s.haltOnUnknown = false) :
    unknownOpcode s = { s with diags := s.diags ++ [⟨.unknownOpcode, some s.cur, s.fetchAddr⟩] } :=
  if_neg (Bool.eq_false_iff.mp hu)

/-- Settles O13: the policy in the fetched state, whose fetch address is the old PC. -/
theorem unknownOpcodePolicy : Obligations.UnknownOpcodePolicy := by
  intro s op e hr hf hd
  have hstep := step_of_unknown hr hf hd
  refine ⟨fun hu => ?halts, fun hu => ?goesOn⟩
  case halts =>
    rw [hstep, unknownOpcode_of_halt (s := s.fetched op) hu, fetched_fetchAddr]
    rfl
  case goesOn =>
    rw [hstep, unknownOpcode_of_goOn (s := s.fetched op) hu, fetched_fetchAddr]
    rfl

/-! ### How a step ends -/

/-- A step ends in one of three ways: the fetch halts, the fetched word halts, or the machine goes on with at most one
diagnostic more. -/
theorem step_halts_or_goes_on (h : step s = .next t) :
    (4094 < s.PC.toNat ∧ t = s.halt .fetchRange none s.PC) ∨
      (s.PC.toNat ≤ 4094 ∧ ∃ op, fetchWord s = some op ∧
        ((∃ r, t = (s.fetched op).halt r (some op) s.PC) ∨
          (t.runState = .running ∧ ∃ new, t.diags = s.diags ++ new ∧ new.length ≤ 1))) := by
  obtain ⟨hr, ⟨hpc, rfl⟩ | ⟨hpc, op, hf, ⟨i, -, hexec⟩ | ⟨e, -, rfl⟩⟩⟩ := step_eq_next h
  · exact .inl ⟨hpc, rfl⟩
  · refine .inr ⟨hpc, op, hf, ?_⟩
    obtain ⟨-, rfl⟩ | ⟨r, -, rfl⟩ := exec_eq_next hexec
    · obtain ⟨-, -, -, hrun, -, hdiags⟩ := completed_unchanged i (s.fetched op)
      exact .inr ⟨hrun.trans hr, [], by simp [hdiags], by simp⟩
    · exact .inl ⟨r, by rw [fetched_fetchAddr, State.fetched_cur]⟩
  · refine .inr ⟨hpc, op, hf, ?_⟩
    unfold unknownOpcode
    rw [fetched_fetchAddr]
    split_ifs
    · exact .inl ⟨_, rfl⟩
    · exact .inr ⟨hr, [_], rfl, le_rfl⟩

/-- In Running there is a step (40_cycle.md rule R90): neither the fetch nor an instruction gives a fault. -/
theorem step_exists (hr : s.runState = .running) : ∃ t, step s = .next t := by
  cases hf : fetchWord s with
  | none => exact ⟨_, step_of_fetch_none hr hf⟩
  | some op =>
    cases hd : decode op with
    | error e => exact ⟨_, step_of_unknown hr hf hd⟩
    | ok i =>
      rw [step_of_decode hr hf hd]
      cases hc : haltCause i (s.fetched op) with
      | none => exact ⟨_, exec_of_haltCause_none hc⟩
      | some r => exact ⟨_, exec_of_haltCause_some hc⟩

theorem step_of_paused (h : s.runState = .paused) : step s = .fault .stepWhilePaused := by
  simp [step, stepGate, h]

theorem step_of_halted (h : s.runState = .halted) : step s = .fault .stepWhileHalted := by
  simp [step, stepGate, h]

/-- Settles O14: a step exists in Running and ends in one of three ways, none of them Paused. -/
theorem stepExistsExactlyWhenRunning : Obligations.StepExistsExactlyWhenRunning := by
  refine fun s => ⟨fun hr => ?_, step_of_paused, step_of_halted⟩
  obtain ⟨t, h⟩ := step_exists hr
  obtain ⟨-, rfl⟩ | ⟨-, op, -, ⟨r, rfl⟩ | ⟨hrun, -⟩⟩ := step_halts_or_goes_on h
  · exact ⟨_, h, .inr rfl⟩
  · exact ⟨_, h, .inr rfl⟩
  · exact ⟨t, h, .inl hrun⟩

/-- Settles O15: the two halts are `State.halt` of the state before and of the fetched state. -/
theorem haltingStepIsAllOrNothing : Obligations.HaltingStepIsAllOrNothing := by
  intro s t h hhalt
  obtain ⟨hpc, rfl⟩ | ⟨hpc, op, hf, ⟨r, rfl⟩ | ⟨hrun, -⟩⟩ := step_halts_or_goes_on h
  · exact ⟨fun _ => rfl, fun hle => absurd hpc (Nat.not_lt.mpr hle)⟩
  · exact ⟨fun hgt => absurd hpc (Nat.not_le.mpr hgt), fun _ => ⟨op, hf, rfl⟩⟩
  · cases hrun.symm.trans hhalt

/-- Settles O16: a halt emits its own record, and a machine that goes on at most one diagnostic. -/
theorem atMostOneDiagnosticPerStep : Obligations.AtMostOneDiagnosticPerStep := by
  intro s t h
  obtain ⟨-, rfl⟩ | ⟨-, op, -, ⟨r, rfl⟩ | ⟨hrun, new, hdiags, hlen⟩⟩ := step_halts_or_goes_on h
  · exact ⟨[_], rfl, le_rfl, fun _ => rfl⟩
  · exact ⟨[_], rfl, le_rfl, fun _ => rfl⟩
  · exact ⟨new, hdiags, hlen, fun hhalt => by cases hrun.symm.trans hhalt⟩

/-! ### A word placed at PC -/

/-- What is placed at PC is what the next fetch reads (20_memory.md rule R50). -/
theorem fetchWord_placeWord (hm : s.mem.wf) (hpc : s.PC.toNat ≤ 4094) : fetchWord (s.placeWord op) = some op := by
  have hread : ∀ b, (s.placeWord op).readByte b = _ :=
    Memory.read_writeList [highByte op, lowByte op] hm (show s.PC.toNat + 2 ≤ 4096 by omega)
  have hhi : (s.placeWord op).readByte s.PC.toNat = highByte op := by simp [hread]
  have hlo : (s.placeWord op).readByte (s.PC.toNat + 1) = lowByte op := by simp [hread]
  have hPC : (s.placeWord op).PC = s.PC := rfl
  rw [fetchWord_eq_some (hPC ▸ hpc), hPC, hhi, hlo, wordOfBytes_highByte_lowByte]

/-- Settles O11: the placed word is fetched and decodes to its instruction. -/
theorem placedInstructionRunsNext : Obligations.PlacedInstructionRunsNext := by
  intro s i hr hpc hm hi
  rw [State.withFetchWord, tableWord_toNat]
  exact step_of_decode hr (fetchWord_placeWord hm hpc) (decode_encode hi)

/-! ### Waiting for a key -/

/-- One step of the wait: FX0A goes back over the fetch's advance. -/
theorem step_of_key_wait {x : Reg} (hr : s.runState = .running) (hf : fetchWord s = some op)
    (hd : decode op = .ok (.ldVxK x)) (hup : ∀ k, s.keyDown k = false) : step s = .next { s with cur := op } := by
  have hPC : s.PC + 2#16 - 2#16 = s.PC := BitVec.add_sub_cancel _ _
  rw [step_of_decode hr hf hd, exec_ldVxK, State.keyTaken_of_none (s := s.fetched op) hup, State.fetched_PC, hPC]
  rfl

/-- Settles O46: by induction on the number of steps, since the state after one step waits at the same word. -/
theorem keyWaitRepeatsUntilKey : Obligations.KeyWaitRepeatsUntilKey := by
  intro x s op k hr hf hd hup
  induction k generalizing s with
  | zero => simp [runEvents, transition, step_of_key_wait hr hf hd hup]
  | succ k ih =>
    rw [List.replicate_succ, runEvents, transition, step_of_key_wait hr hf hd hup]
    exact ih { s with cur := op } hr hf hup

end Sys2Proof.Machine
end

section
/-! PROOFS. Creation and host operations (70_reset_and_hazards.md section 1; 60_exceptions.md sections 1 and 3 to 5):
what a created machine holds, what each operation changes, and what a schedule keeps. -/

namespace Sys2Proof.Machine

/-! ### Canonical memories -/

namespace Memory

/-- The least entry of a canonical memory reads differently in a memory that starts past it. -/
theorem read_ne_of_forall_lt {c : Host.Cell} {m m' : Memory} (hc : c.2 ≠ resetByte c.1)
    (h : ∀ d ∈ m', c.1 < d.1) : read (c :: m) c.1 ≠ read m' c.1 := by
  rw [read_cons, if_pos rfl, read_of_forall_lt h]
  exact hc

/-- A canonical memory without its first entry is canonical. -/
theorem wf_tail {c : Host.Cell} {m : Memory} (h : wf (c :: m)) : wf m :=
  ⟨(List.pairwise_cons.mp h.1).2, fun d hd => h.2 d (List.mem_cons_of_mem c hd)⟩

/-- Canonical memories that read the same are the same list: their least entries agree, and so on. -/
theorem eq_of_read_eq : ∀ {m₁ m₂ : Memory}, m₁.wf → m₂.wf → (∀ a, m₁.read a = m₂.read a) → m₁ = m₂
  | [], [], _, _, _ => rfl
  | c :: m, [], h₁, _, hread => by
    obtain ⟨-, hc⟩ := h₁.2 c (List.mem_cons_self ..)
    exact absurd (hread c.1) (read_ne_of_forall_lt hc (by simp))
  | [], c :: m, _, h₂, hread => by
    obtain ⟨-, hc⟩ := h₂.2 c (List.mem_cons_self ..)
    exact absurd (hread c.1).symm (read_ne_of_forall_lt hc (by simp))
  | c :: m, d :: m', h₁, h₂, hread => by
    obtain ⟨hltc, -⟩ := List.pairwise_cons.mp h₁.1
    obtain ⟨hltd, -⟩ := List.pairwise_cons.mp h₂.1
    obtain ⟨-, hc⟩ := h₁.2 c (List.mem_cons_self ..)
    obtain ⟨-, hd⟩ := h₂.2 d (List.mem_cons_self ..)
    rcases lt_trichotomy c.1 d.1 with hlt | heq | hlt
    · refine absurd (hread c.1) (read_ne_of_forall_lt hc fun e he => ?_)
      rcases List.mem_cons.mp he with rfl | he
      · exact hlt
      · exact hlt.trans (hltd e he)
    · have hhead : c = d := by
        have hval := hread c.1
        rw [read_cons, if_pos rfl, read_cons, if_pos heq] at hval
        exact Prod.ext heq hval
      subst hhead
      have htail : m = m' := by
        refine eq_of_read_eq (wf_tail h₁) (wf_tail h₂) fun a => ?_
        have ha := hread a
        rw [read_cons, read_cons] at ha
        split_ifs at ha with hac
        · rw [hac, read_of_forall_lt hltc, read_of_forall_lt hltd]
        · exact ha
      rw [htail]
    · refine absurd (hread d.1).symm (read_ne_of_forall_lt hd fun e he => ?_)
      rcases List.mem_cons.mp he with rfl | he
      · exact hlt
      · exact hlt.trans (hltc e he)

end Memory

/-- Settles O8: by recursion on the two lists, whose least entries must agree. -/
theorem canonicalMemoryDeterminedByReads : Obligations.CanonicalMemoryDeterminedByReads := fun _ _ =>
  Memory.eq_of_read_eq

/-! ### Creation -/

/-- The memory of a created machine: the font at 0, the ROM at 512 (70_reset_and_hazards.md rule R250). -/
def loadedMemory (font : Vector Byte 80) (rom : List Byte) : Memory :=
  (Memory.writeList [] 0 font.toList).writeList 512 rom

theorem create_of_le (cfg : Config) {rom : List Byte} (h : rom.length ≤ 3584) :
    create cfg rom = .ok { State.reset with
      mem := loadedMemory cfg.font rom
      haltOnUnknown := cfg.haltOnUnknown } := if_neg (by omega)

theorem create_of_gt (cfg : Config) {rom : List Byte} (h : rom.length > 3584) :
    create cfg rom = .error .romTooLarge := if_pos h

theorem wf_loadedMemory (font : Vector Byte 80) (rom : List Byte) : (loadedMemory font rom).wf :=
  Memory.wf_writeList rom (Memory.wf_writeList font.toList Memory.wf_nil 0) 512

theorem resetByte_of_ge {a : Nat} (h : 80 ≤ a) : resetByte a = 0 :=
  List.getD_eq_default defaultFont 0 h

/-- The font alone: its bytes below 80, and zeros. -/
theorem read_font (font : Vector Byte 80) (a : Nat) :
    (Memory.writeList [] 0 font.toList).read a = if a < 80 then font.toList.getD a 0 else 0 := by
  have hlen : font.toList.length = 80 := font.length_toList
  split_ifs with h
  · rw [Memory.read_writeList font.toList Memory.wf_nil (by omega), dif_pos (by omega),
      List.getD_eq_getElem _ _ (by omega)]
    rfl
  · rw [Memory.read_writeList_of_not_mem _ _ _ _ (by omega), Memory.read_nil, resetByte_of_ge (by omega)]

/-- What a created machine reads: the font, zeros up to 511, the ROM, and zeros behind it. -/
theorem read_loadedMemory (font : Vector Byte 80) {rom : List Byte} (h : rom.length ≤ 3584) (a : Nat) :
    (loadedMemory font rom).read a =
      if a < 80 then font.toList.getD a 0 else if a < 512 then 0 else rom.getD (a - 512) 0 := by
  by_cases hin : 512 ≤ a ∧ a < 512 + rom.length
  · rw [loadedMemory, Memory.read_writeList rom (Memory.wf_writeList _ Memory.wf_nil 0) (by omega), dif_pos hin,
      if_neg (by omega), if_neg (by omega), List.getD_eq_getElem _ _ (by omega)]
  · rw [loadedMemory, Memory.read_writeList_of_not_mem _ _ _ _ hin, read_font]
    split_ifs with h80 h512
    · rfl
    · rfl
    · rw [List.getD_eq_default _ _ (by omega)]

/-- Settles O54: `loadedMemory` is canonical and reads as the table says; every other field is the reset one. -/
theorem createLoadsTheRom : Obligations.CreateLoadsTheRom := fun cfg rom =>
  ⟨create_of_gt cfg, fun h =>
    ⟨_, create_of_le cfg h, rfl, wf_loadedMemory cfg.font rom, fun a _ => read_loadedMemory cfg.font h a⟩⟩

/-- An empty ROM and the default font leave nothing that differs from the reset contents. -/
theorem loadedMemory_default : loadedMemory Config.default.font [] = [] := by
  refine Memory.eq_of_read_eq (wf_loadedMemory _ _) Memory.wf_nil fun a => ?_
  rw [read_loadedMemory _ (by simp), Memory.read_nil]
  split_ifs with h80 h512
  · rfl
  · exact (resetByte_of_ge (by omega)).symm
  · exact (resetByte_of_ge (by omega)).symm

/-- Settles O53: the empty load by `loadedMemory_default`, the reset values field by field. -/
theorem resetIsTheEmptyLoad : Obligations.ResetIsTheEmptyLoad := by
  refine ⟨?create, rfl, rfl, rfl, rfl, rfl, rfl, by decide, fun a => ?bytes, fun p hp => ?pixels, by decide⟩
  case create =>
    rw [create_of_le _ (by simp), loadedMemory_default]
    rfl
  case bytes =>
    show resetByte a = _
    split_ifs with h80
    · rfl
    · exact resetByte_of_ge (by omega)
  case pixels => exact getElem?_clearFb hp

/-! ### Host operations -/

section
variable {s t : State}

theorem hostStep_of_allowed {op : HostOp} (h : op.allowed s.runState = true) : hostStep op s = .next (op.effect s) :=
  hostStep_eq_next.mpr ⟨h, rfl⟩

theorem hostStep_of_not_allowed {op : HostOp} (h : op.allowed s.runState = false) :
    hostStep op s = .fault .hostOpNotAllowed := if_neg (Bool.eq_false_iff.mp h)

/-- Settles O55: ticks are allowed in every run state, and each writes its own timer. -/
theorem timerTicksSaturate : Obligations.TimerTicksSaturate := fun s =>
  ⟨⟨_, hostStep_of_allowed rfl, rfl, satDec_toNat s.DT⟩, ⟨_, hostStep_of_allowed rfl, rfl, satDec_toNat s.ST⟩⟩

theorem keyDown_setKey (k : Fin 16) (b : Bool) (j : Fin 16) :
    ((HostOp.setKey k b).effect s).keyDown j = if j = k then b else s.keyDown j := by
  simp only [HostOp.effect, State.keyDown, Fin.getElem_fin, Vector.getElem_set, Fin.ext_iff, eq_comm]

/-- Settles O56: a key write is a write of one flag; the run-control operations by the three run states. -/
theorem keyWritesAndRunControl : Obligations.KeyWritesAndRunControl := by
  refine fun s => ⟨fun k b => ⟨_, hostStep_of_allowed rfl, rfl, ?same, fun j hj => ?other⟩, ?pause, ?resume, ?quit⟩
  case same => rw [keyDown_setKey, if_pos rfl]
  case other => rw [keyDown_setKey, if_neg hj]
  all_goals cases hr : s.runState <;> simp [hostStep, HostOp.allowed, HostOp.effect, hr]

end

/-! ### Schedules -/

section
variable {s t : State}

/-- A schedule that goes through is its first event and a schedule from there. -/
theorem runEvents_cons_eq_next {e : Event} {es : List Event} :
    runEvents (e :: es) s = .next t ↔ ∃ u, transition e s = .next u ∧ runEvents es u = .next t := by
  rw [runEvents]
  cases transition e s <;> simp

/-- What every event keeps, every schedule keeps. -/
theorem runEvents_keeps {P : State → Prop} (hkeep : ∀ e s t, P s → transition e s = .next t → P t)
    {es : List Event} (hs : P s) (h : runEvents es s = .next t) : P t := by
  induction es generalizing s with
  | nil => exact Host.Outcome.next.inj h ▸ hs
  | cons e es ih =>
    obtain ⟨u, hu, hrest⟩ := runEvents_cons_eq_next.mp h
    exact ih (hkeep e s u hs hu) hrest

/-- In Halted only ticks and key writes happen (60_exceptions.md rules R224 and R230). -/
theorem transition_of_halted {e : Event} (hs : s.runState = .halted) (h : transition e s = .next t) :
    t = { s with DT := t.DT, ST := t.ST, key := t.key } ∧
      e ≠ .step ∧ e ≠ .host .quit ∧ e ≠ .host .resume := by
  cases e with
  | step => cases (step_of_halted hs).symm.trans h
  | host op =>
    obtain ⟨hallowed, rfl⟩ := hostStep_eq_next.mp h
    rw [hs] at hallowed
    cases op with
    | tickDelay => exact ⟨rfl, by simp⟩
    | tickSound => exact ⟨rfl, by simp⟩
    | setKey k b => exact ⟨rfl, by simp⟩
    | pause => cases hallowed
    | resume => cases hallowed
    | quit => cases hallowed

/-- Settles O57: by induction on the schedule; each event is one of the three that Halted allows. -/
theorem haltedIsTerminal : Obligations.HaltedIsTerminal := by
  intro es s t hs h
  induction es generalizing s with
  | nil =>
    cases h
    exact ⟨rfl, by simp⟩
  | cons e es ih =>
    obtain ⟨u, hu, hrest⟩ := runEvents_cons_eq_next.mp h
    obtain ⟨hframe, hstep, hquit, hresume⟩ := transition_of_halted hs hu
    have hu' : u.runState = .halted := by rw [hframe]; exact hs
    obtain ⟨hframe', hstep', hquit', hresume'⟩ := ih u hu' hrest
    refine ⟨by rw [hframe', hframe], ?_⟩
    simp [hstep.symm, hquit.symm, hresume.symm, hstep', hquit', hresume']

end

end Sys2Proof.Machine
end

section
/-! PROOFS. The invariant (10_state.md sections 5, 6 and 11; 60_exceptions.md section 3): it holds of every created
machine, and every instruction, step and host operation keeps it. -/

namespace Sys2Proof.Machine

variable {s t : State}

/-! ### At creation -/

/-- Settles O58: the memory is empty, PC is 0x200, the stack holds no live entry, and there is no halt record. -/
theorem resetMeetsInvariant : Obligations.ResetMeetsInvariant where
  memory := Memory.wf_nil
  pc := by decide
  returns k v hk := absurd hk (Nat.not_lt_zero k)
  record := by decide

theorem create_inv {cfg : Config} {rom : List Byte} (h : create cfg rom = .ok s) : s.Inv := by
  by_cases hlen : rom.length ≤ 3584
  · cases (create_of_le cfg hlen).symm.trans h
    exact { resetMeetsInvariant with memory := wf_loadedMemory cfg.font rom }
  · cases (create_of_gt cfg (Nat.lt_of_not_le hlen)).symm.trans h

/-! ### What halts and other records keep -/

theorem halt_inv (hs : s.Inv) (r : HaltReason) (o : Option Word) (a : Word) : (s.halt r o a).Inv where
  memory := hs.memory
  pc := hs.pc
  returns := hs.returns
  record := by simp

theorem haltInfo_of_running (hs : s.Inv) (hr : s.runState = .running) : s.haltInfo = none := by
  by_contra h
  cases hr.symm.trans (hs.record.mpr h)

/-- The fetch phase keeps the invariant, and the advanced PC is a return address. -/
theorem fetched_inv (hs : s.Inv) (hpc : s.PC.toNat ≤ 4094) (op : Word) :
    (s.fetched op).Inv ∧ 2 ≤ (s.fetched op).PC.toNat ∧ (s.fetched op).PC.toNat ≤ 4096 := by
  have hPC : (s.fetched op).PC.toNat = s.PC.toNat + 2 := advancedPC_toNat hpc
  exact ⟨⟨hs.memory, by omega, hs.returns, hs.record⟩, by omega, by omega⟩

/-! ### What a completed instruction keeps -/

theorem completed_wf {i : Instr} (hm : s.mem.wf) : (completed i s).mem.wf := by
  cases i with
  | ldBVx x => exact Memory.wf_writeList _ hm _
  | ldMemVx x => exact Memory.wf_writeList _ hm _
  | _ => simpa [completed, State.skipIf_eq, State.drawn] using hm

/-- The entry a return pops is live. -/
theorem returned_PC_le (hs : s.Inv) (h : 0 < s.SP.val) : s.returned.PC.toNat ≤ 4096 := by
  have hlt : s.SP.val - 1 < 12 := by omega
  have hget : s.stack[s.SP.val - 1]? = some s.returned.PC := by simp [State.returned, hlt]
  obtain ⟨-, hle⟩ := hs.returns _ _ (by omega) hget
  exact hle

/-- PC after an instruction that does not halt is at most the largest BNNN target (R29). -/
theorem completed_PC_le {i : Instr} (hs : s.Inv) (hlo : 2 ≤ s.PC.toNat) (hpc : s.PC.toNat ≤ 4096)
    (hc : haltCause i s = none) : (completed i s).PC.toNat ≤ 0x10FE := by
  have hskip : ∀ c, (s.skipIf c).PC.toNat ≤ 0x10FE := by
    intro c
    rw [State.skipIf_PC]
    split_ifs
    · rw [BitVec.toNat_add, BitVec.toNat_ofNat]
      omega
    · omega
  cases i with
  | jp nnn =>
    have hPC : (completed (.jp nnn) s).PC.toNat = nnn.toNat := zext16_toNat nnn
    omega
  | call nnn =>
    have hPC : (completed (.call nnn) s).PC.toNat = nnn.toNat := zext16_toNat nnn
    omega
  | jpV0 nnn =>
    have hPC : (completed (.jpV0 nnn) s).PC.toNat = nnn.toNat + (s.reg 0#4).toNat := offsetTarget_toNat nnn _
    omega
  | ret =>
    exact (returned_PC_le hs (Nat.pos_of_ne_zero (not_of_ite_some_eq_none hc))).trans (by decide)
  | ldVxK x =>
    show (s.keyTaken x).PC.toNat ≤ _
    rw [State.keyTaken_PC]
    split_ifs
    · rw [BitVec.toNat_sub, BitVec.toNat_ofNat]
      omega
    · omega
  | seImm x kk => exact hskip _
  | sneImm x kk => exact hskip _
  | seReg x y n => exact hskip _
  | sneReg x y n => exact hskip _
  | skp x => exact hskip _
  | sknp x => exact hskip _
  | _ => exact hpc.trans (by decide)

/-- The live stack entries stay return addresses: a return drops one, a call adds the advanced PC (R112, R114). -/
theorem completed_returns {i : Instr} (hs : s.Inv) (hlo : 2 ≤ s.PC.toNat) (hpc : s.PC.toNat ≤ 4096)
    (hc : haltCause i s = none) {k : Nat} {v : Word} (hk : k < (completed i s).SP.val)
    (hv : (completed i s).stack[k]? = some v) : 2 ≤ v.toNat ∧ v.toNat ≤ 4096 := by
  by_cases hstack : (completed i s).stack ≠ s.stack ∨ (completed i s).SP ≠ s.SP
  · obtain rfl | ⟨nnn, rfl⟩ := completed_callStack hstack
    · have hk' : k < s.SP.val - 1 := hk
      exact hs.returns k v (by omega) hv
    · have hne : s.SP.val ≠ 12 := not_of_ite_some_eq_none hc
      have hSP : (s.called nnn).SP.val = s.SP.val + 1 := Fin.val_add_one_of_lt (Fin.lt_def.mpr (by
        show s.SP.val < 12
        omega))
      have hk' : k < s.SP.val + 1 := hSP ▸ hk
      have hv' : (s.stack.setIfInBounds s.SP.val s.PC)[k]? = some v := hv
      rw [Vector.getElem?_setIfInBounds] at hv'
      split_ifs at hv' with heq hlt
      · cases hv'
        exact ⟨hlo, hpc⟩
      · exact hs.returns k v (by omega) hv'
  · obtain ⟨hst, hsp⟩ := not_or.mp hstack
    rw [not_not.mp hst] at hv
    rw [not_not.mp hsp] at hk
    exact hs.returns k v hk hv

theorem completed_inv {i : Instr} (hs : s.Inv) (hlo : 2 ≤ s.PC.toNat) (hpc : s.PC.toNat ≤ 4096)
    (hc : haltCause i s = none) : (completed i s).Inv where
  memory := completed_wf hs.memory
  pc := completed_PC_le hs hlo hpc hc
  returns _ _ := completed_returns hs hlo hpc hc
  record := by
    obtain ⟨-, -, -, hrun, hinfo, -⟩ := completed_unchanged i s
    rw [hrun, hinfo]
    exact hs.record

/-! ### Steps, host operations and schedules -/

/-- Settles O59: the fetch phase keeps the invariant, and so do a completed instruction, every halt and the
unknown-opcode policy. -/
theorem stepKeepsInvariant : Obligations.StepKeepsInvariant := by
  intro s t hs h
  obtain ⟨-, ⟨-, rfl⟩ | ⟨hpc, op, -, hcase⟩⟩ := step_eq_next h
  · exact halt_inv hs _ _ _
  · obtain ⟨hf, hlo, hhi⟩ := fetched_inv hs hpc op
    obtain ⟨i, -, hexec⟩ | ⟨e, -, rfl⟩ := hcase
    · obtain ⟨hc, rfl⟩ | ⟨r, -, rfl⟩ := exec_eq_next hexec
      · exact completed_inv hf hlo hhi hc
      · exact halt_inv hf _ _ _
    · unfold unknownOpcode
      split_ifs
      · exact halt_inv hf _ _ _
      · exact ⟨hf.memory, hf.pc, hf.returns, hf.record⟩

/-- A host operation writes neither memory nor PC nor the stack, and run control keeps the halt record exact. -/
theorem hostStep_inv {op : HostOp} (hs : s.Inv) (h : hostStep op s = .next t) : t.Inv := by
  obtain ⟨hallowed, rfl⟩ := hostStep_eq_next.mp h
  have hrecord : (op.effect s).runState = .halted ↔ (op.effect s).haltInfo ≠ none := by
    have hinfo : s.runState = .halted ↔ s.haltInfo ≠ none := hs.record
    cases op with
    | tickDelay => exact hinfo
    | tickSound => exact hinfo
    | setKey k b => exact hinfo
    | quit => simp [HostOp.effect]
    | pause =>
      have hr : s.runState = .running := by simpa [HostOp.allowed] using hallowed
      simp [HostOp.effect, haltInfo_of_running hs hr]
    | resume =>
      have hr : s.runState = .paused := by simpa [HostOp.allowed] using hallowed
      have hnone : s.haltInfo = none := by simpa [hr] using hinfo
      simp [HostOp.effect, hnone]
  cases op <;> exact ⟨hs.memory, hs.pc, hs.returns, hrecord⟩

theorem transition_inv (e : Event) (s t : State) (hs : s.Inv) (h : transition e s = .next t) : t.Inv := by
  cases e with
  | step => exact stepKeepsInvariant s t hs h
  | host op => exact hostStep_inv hs h

/-- Settles O60: creation gives the invariant, and every event of a schedule keeps it. -/
theorem everyScheduleKeepsInvariant : Obligations.EveryScheduleKeepsInvariant :=
  ⟨fun _ _ _ => create_inv, fun _ _ _ => runEvents_keeps transition_inv⟩

end Sys2Proof.Machine
end

section
/-! PROOFS. The call stack opcodes (41_flow.md) and the register skips (42_skip_imm.md). -/

namespace Sys2Proof.Machine

variable (s : State)

/-! ### Return and call -/

/-- Settles O25: a live entry is popped by `State.returned`; on an empty stack the one halt. -/
theorem retPopsReturnAddress : Obligations.RetPopsReturnAddress := by
  refine fun s => ⟨decode_ret, fun h => ⟨_, exec_ret_of_pos h, ?depth, ?popped, rfl, s.returned_readByte⟩,
    exec_ret_of_empty⟩
  case depth =>
    show s.SP.val - 1 + 1 = s.SP.val
    omega
  case popped =>
    have hlt : s.SP.val - 1 < 12 := by omega
    simp [State.returned, hlt]

theorem State.called_SP_val {nnn : Addr} (h : s.SP.val < 12) : (s.called nnn).SP.val = s.SP.val + 1 :=
  Fin.val_add_one_of_lt (Fin.lt_def.mpr h)

theorem State.called_stack_top {nnn : Addr} (h : s.SP.val < 12) : (s.called nnn).stack[s.SP.val]? = some s.PC := by
  simp [State.called, h]

theorem State.called_stack_ne {nnn : Addr} {k : Nat} (h : k ≠ s.SP.val) :
    (s.called nnn).stack[k]? = s.stack[k]? :=
  Vector.getElem?_setIfInBounds_ne h.symm

/-- Settles O27: into a free slot by `State.called`; on a full stack the one halt. -/
theorem callPushesAndJumps : Obligations.CallPushesAndJumps := fun nnn s =>
  ⟨decode_packNNN_call nnn, fun h => ⟨_, exec_call_of_lt nnn h, zext16_toNat nnn, s.called_SP_val h,
    s.called_stack_top h, fun _ => s.called_stack_ne, rfl, s.called_readByte nnn⟩, exec_call_of_full nnn⟩

/-- Settles O28: the entry the return pops is the one the call pushed, and those below are untouched. -/
theorem retAfterCallResumes : Obligations.RetAfterCallResumes := by
  intro nnn s t u hlt h hsp hlive
  cases (exec_call_of_lt nnn hlt).symm.trans h
  have hdepth : u.SP.val = s.SP.val + 1 := by rw [hsp, s.called_SP_val hlt]
  rw [s.called_SP_val hlt] at hlive
  have hback : u.SP.val - 1 = s.SP.val := by omega
  refine ⟨_, exec_ret_of_pos (by omega), ?pc, Fin.ext hback, fun k hk => ?live⟩
  case pc =>
    show u.stack[u.SP.val - 1]?.getD 0 = s.PC
    rw [hback, hlive _ (Nat.lt_succ_self _), s.called_stack_top hlt]
    rfl
  case live =>
    have hk' : k < s.SP.val := hback ▸ hk
    show u.stack[k]? = s.stack[k]?
    rw [hlive k (by omega), s.called_stack_ne (by omega)]

/-! ### Register skips -/

theorem exec_seReg (x y : Reg) (n : Nibble) : exec (.seReg x y n) s = .next (s.skipIf (s.reg x == s.reg y)) := rfl

theorem exec_sneReg (x y : Reg) (n : Nibble) : exec (.sneReg x y n) s = .next (s.skipIf (s.reg x != s.reg y)) := rfl

/-- Settles O30: one conditional skip on `V[x] = V[y]` and one on its negation, whatever the low nibble. -/
theorem skipsOnRegisters : Obligations.SkipsOnRegisters := by
  intro x y n s
  refine ⟨decode_packXYN_seReg x y n, decode_packXYN_sneReg x y n,
    ⟨_, exec_seReg s x y n, ?equal, onlyPC_skipIf s _⟩, ⟨_, exec_sneReg s x y n, ?differ, onlyPC_skipIf s _⟩⟩
  case equal => simp only [s.skipIf_PC, beq_iff_eq]
  case differ => simp only [s.skipIf_PC, bne_iff_ne]

end Sys2Proof.Machine
end

section
/-! PROOFS. The register ALU (43_alu.md): the value each operation writes to `V[x]`, the flag it writes to VF, and
that it writes nothing else. -/

namespace Sys2Proof.Machine

variable (x y : Reg) (s : State)

/-! ### Their meanings -/

theorem exec_ldReg : exec (.ldReg x y) s = .next (s.setReg x (s.reg y)) := rfl

theorem exec_orReg : exec (.orReg x y) s = .next (s.setReg x (s.reg x ||| s.reg y)) := rfl

theorem exec_andReg : exec (.andReg x y) s = .next (s.setReg x (s.reg x &&& s.reg y)) := rfl

theorem exec_xorReg : exec (.xorReg x y) s = .next (s.setReg x (s.reg x ^^^ s.reg y)) := rfl

theorem exec_addReg : exec (.addReg x y) s =
    .next (s.setRegFlag x (sum8 (s.reg x) (s.reg y)) (carryFlag (s.reg x) (s.reg y))) := rfl

theorem exec_sub : exec (.sub x y) s =
    .next (s.setRegFlag x (diff8 (s.reg x) (s.reg y)) (notBorrowFlag (s.reg x) (s.reg y))) := rfl

theorem exec_subn : exec (.subn x y) s =
    .next (s.setRegFlag x (diff8 (s.reg y) (s.reg x)) (notBorrowFlag (s.reg y) (s.reg x))) := rfl

theorem exec_shr : exec (.shr x y) s = .next (s.setRegFlag x (s.reg x >>> 1) (lsbFlag (s.reg x))) := rfl

theorem exec_shl : exec (.shl x y) s = .next (s.setRegFlag x (s.reg x <<< 1) (msbFlag (s.reg x))) := rfl

/-! ### Copy and bitwise operations -/

/-- Settles O32: one register write, of `V[y]`. -/
theorem assignCopiesRegister : Obligations.AssignCopiesRegister := fun x y s =>
  ⟨decode_packXYN_ldReg x y, _, exec_ldReg x y s, s.reg_setReg_same x _, onlyRegs_setReg x s _⟩

/-- Settles O33: one register write each, read bit by bit. -/
theorem bitwiseOperations : Obligations.BitwiseOperations := by
  intro x y s
  refine ⟨decode_packXYN_orReg x y, decode_packXYN_andReg x y, decode_packXYN_xorReg x y,
    ⟨_, exec_orReg x y s, onlyRegs_setReg x s _, fun b _ => ?or⟩,
    ⟨_, exec_andReg x y s, onlyRegs_setReg x s _, fun b _ => ?and⟩,
    ⟨_, exec_xorReg x y s, onlyRegs_setReg x s _, fun b _ => ?xor⟩⟩
  case or => rw [s.reg_setReg_same, BitVec.getLsbD_or]
  case and => rw [s.reg_setReg_same, BitVec.getLsbD_and]
  case xor => rw [s.reg_setReg_same, BitVec.getLsbD_xor]

/-! ### Operations with a flag -/

theorem State.reg_setRegFlag_vf (v : Byte) (b : Bool) :
    (s.setRegFlag x v b).reg Reg.vf = if b then 1#8 else 0#8 := by
  rw [s.reg_setRegFlag, if_pos rfl]

theorem State.reg_setRegFlag_same {x : Reg} (hx : x ≠ Reg.vf) (v : Byte) (b : Bool) :
    (s.setRegFlag x v b).reg x = v := by
  rw [s.reg_setRegFlag, if_neg hx, if_pos rfl]

theorem onlyRegs_setRegFlag (v : Byte) (b : Bool) :
    OnlyRegs (fun r => r = x ∨ r = Reg.vf) s (s.setRegFlag x v b) := by
  refine ⟨rfl, fun r hr => ?_, s.readByte_setRegFlag x v b⟩
  obtain ⟨hx, hvf⟩ := not_or.mp hr
  rw [s.reg_setRegFlag, if_neg hvf, if_neg hx]

/-- Settles O34: the sum and the carry, the flag last. -/
theorem addSetsCarry : Obligations.AddSetsCarry := by
  intro x y s
  refine ⟨decode_packXYN_addReg x y, _, exec_addReg x y s, ?carry, fun hx => ?sum, onlyRegs_setRegFlag x s _ _⟩
  case carry => simp only [s.reg_setRegFlag_vf, carryFlag, decide_eq_true_eq]
  case sum => rw [s.reg_setRegFlag_same hx, sum8_toNat]

/-- A difference of bytes is the integer difference modulo 2^8. -/
theorem diff8_toInt (a b : Byte) : ((diff8 a b).toNat : Int) = (a.toNat - b.toNat : Int) % 2 ^ 8 := by
  have ha := a.isLt
  have hb := b.isLt
  rw [diff8, BitVec.toNat_ofNat]
  omega

/-- Settles O35: both orders write `diff8` and the not-borrow of the same operands, the flag last. -/
theorem subtractSetsNotBorrow : Obligations.SubtractSetsNotBorrow := by
  intro x y s
  refine ⟨decode_packXYN_sub x y, decode_packXYN_subn x y,
    ⟨_, exec_sub x y s, ?notBorrow, fun hx => ?difference, onlyRegs_setRegFlag x s _ _⟩,
    ⟨_, exec_subn x y s, ?notBorrowReversed, fun hx => ?differenceReversed, onlyRegs_setRegFlag x s _ _⟩⟩
  case notBorrow => simp only [s.reg_setRegFlag_vf, notBorrowFlag, decide_eq_true_eq]
  case difference => rw [s.reg_setRegFlag_same hx, diff8_toInt]
  case notBorrowReversed => simp only [s.reg_setRegFlag_vf, notBorrowFlag, decide_eq_true_eq]
  case differenceReversed => rw [s.reg_setRegFlag_same hx, diff8_toInt]

/-- A bit of a byte as the number the flag holds. -/
theorem flag_toNat (v : Byte) (k : Nat) : (if v.getLsbD k then 1#8 else 0#8).toNat = v.toNat / 2 ^ k % 2 := by
  rw [BitVec.getLsbD, Nat.testBit_eq_decide_div_mod_eq]
  split_ifs with h <;> simp at h ⊢ <;> omega

/-- Settles O36: the two shifts of `V[x]` and the bits 0 and 7 they drop, the flag last. -/
theorem shiftsMoveBitIntoFlag : Obligations.ShiftsMoveBitIntoFlag := by
  intro x y s
  have hlt := (s.reg x).isLt
  refine ⟨decode_packXYN_shr x y, decode_packXYN_shl x y,
    ⟨_, exec_shr x y s, ?lsb, fun hx => ?half, onlyRegs_setRegFlag x s _ _⟩,
    ⟨_, exec_shl x y s, ?msb, fun hx => ?double, onlyRegs_setRegFlag x s _ _⟩⟩
  case lsb =>
    rw [s.reg_setRegFlag_vf, lsbFlag, flag_toNat, Nat.pow_zero, Nat.div_one]
  case msb =>
    rw [s.reg_setRegFlag_vf, msbFlag, flag_toNat]
    omega
  case half =>
    rw [s.reg_setRegFlag_same hx, BitVec.toNat_ushiftRight, Nat.shiftRight_eq_div_pow, Nat.pow_one]
  case double =>
    rw [s.reg_setRegFlag_same hx, BitVec.toNat_shiftLeft, Nat.shiftLeft_eq, Nat.pow_one]

end Sys2Proof.Machine
end

section
/-! PROOFS. Offset jump and random byte (44_index_draw.md); keys, index arithmetic and the three opcodes that move
registers to and from memory (45_key_timer_mem.md). -/

namespace Sys2Proof.Machine

/-! ### Offset jump, random byte and index arithmetic -/

section
variable (s : State)

theorem exec_jpV0 (nnn : Addr) : exec (.jpV0 nnn) s = .next (s.setPC (offsetTarget nnn (s.reg 0#4))) := rfl

theorem exec_rnd (x : Reg) (kk : Byte) :
    exec (.rnd x kk) s = .next ((s.setReg x (Config.randomByte s.draws &&& kk)).nextDraw) := rfl

theorem exec_addIVx (x : Reg) : exec (.addIVx x) s = .next (s.setI (indexSum s.I (s.reg x))) := rfl

theorem exec_ldFVx (x : Reg) : exec (.ldFVx x) s = .next (s.setI (glyphAddr (s.reg x))) := rfl

end

/-- Settles O38: the target `nnn + V0` fits in 16 bits, so the sum is not cut. -/
theorem offsetJumpAddsV0 : Obligations.OffsetJumpAddsV0 := fun nnn s =>
  ⟨decode_packNNN_jpV0 nnn, _, exec_jpV0 s nnn, offsetTarget_toNat nnn _, onlyPC_setPC s _⟩

/-- Settles O39: one register write, of the masked random byte, and the counter advances. -/
theorem randomByteIsMasked : Obligations.RandomByteIsMasked := fun x kk s =>
  ⟨decode_packXKK_rnd x kk, _, exec_rnd s x kk, s.reg_setReg_same x _, rfl, fun _ hr => s.reg_setReg_ne hr _, rfl,
    s.setReg_readByte x (Config.randomByte s.draws &&& kk)⟩

/-- Settles O47: both write I alone, the sum modulo 2^16 and the glyph's address. -/
theorem indexArithmetic : Obligations.IndexArithmetic := fun x s =>
  ⟨decode_packXKK_addIVx x, decode_packXKK_ldFVx x,
    ⟨_, exec_addIVx s x, BitVec.toNat_ofNat _ _, onlyI_setI s _⟩,
    ⟨_, exec_ldFVx s x, glyphAddr_toNat _, onlyI_setI s _⟩⟩

/-! ### Keys -/

/-- Settles O43: a key number skips on the key's flag or its negation; a number above 15 has the one halt. -/
theorem keySkips : Obligations.KeySkips := by
  intro x s
  refine ⟨decode_packXKK_skp x, decode_packXKK_sknp x, fun k hk =>
    ⟨⟨_, exec_skp_of_key hk, s.skipIf_PC _, onlyPC_skipIf s _⟩, ⟨_, exec_sknp_of_key hk, ?up, onlyPC_skipIf s _⟩⟩,
    fun hgt => ⟨exec_skp_of_gt hgt, exec_sknp_of_gt hgt⟩⟩
  case up => simp only [s.skipIf_PC, Bool.not_eq_true']

/-- The least key down is the one FX0A finds. -/
theorem State.lowestKey?_of_least {s : State} {k : Fin 16} (hk : s.keyDown k = true)
    (hleast : ∀ j, j < k → s.keyDown j = false) : s.lowestKey? = some k.val :=
  s.lowestKey?_eq_some.mpr ⟨k.isLt, hk, fun j hj => hleast ⟨j, hj.trans k.isLt⟩ hj⟩

/-- Settles O45: FX0A goes back to its word, or writes the least key down to `V[x]`. -/
theorem keyWaitTakesLowestKey : Obligations.KeyWaitTakesLowestKey := by
  intro x s
  refine ⟨decode_packXKK_ldVxK x, fun hup => ⟨_, exec_ldVxK x, ?_⟩, fun k hk hleast => ⟨_, exec_ldVxK x, ?_⟩⟩
  · rw [State.keyTaken_of_none hup]
    exact ⟨rfl, onlyPC_setPC s _⟩
  · rw [State.keyTaken_of_some (State.lowestKey?_of_least hk hleast), s.reg_setReg_same, BitVec.toNat_ofNat]
    exact ⟨by omega, onlyRegs_setReg x s _⟩

/-! ### Stores -/

section
variable {s : State}

/-- A run of bytes written at `I`: its bytes are read back, and the ones outside are kept. -/
theorem onlyBytes_setMem_writeList {bs : List Byte} {n : Nat} (hn : bs.length = n + 1) :
    OnlyBytes (s.indexAddr 0) (s.indexAddr n) s (s.setMem (s.mem.writeList s.I.toNat bs)) := by
  refine ⟨rfl, fun a ha => Memory.read_writeList_of_not_mem _ _ _ _ fun hin => ha ?_⟩
  simp only [State.indexAddr]
  omega

theorem readByte_setMem_writeList (hm : s.mem.wf) {bs : List Byte} (hfit : s.I.toNat + bs.length ≤ 4096) {k : Nat}
    (hk : k < bs.length) : (s.setMem (s.mem.writeList s.I.toNat bs)).readByte (s.indexAddr k) = bs[k] := by
  rw [State.setMem_readByte, Memory.read_writeList bs hm hfit, State.indexAddr, dif_pos (by omega)]
  simp

theorem exec_ldMemVx_of_le {x : Reg} (h : s.indexAddr x.toNat ≤ 4095) :
    exec (.ldMemVx x) s = .next (s.setMem (s.mem.writeList s.I.toNat (s.regsUpTo x))) :=
  (exec_ldMemVx x).trans (if_pos h)

/-- The byte FX55 stores at `I + r` is `V[r]` (45_key_timer_mem.md rule R199). -/
theorem readByte_stored_reg (hm : s.mem.wf) {x r : Reg} (h : s.indexAddr x.toNat ≤ 4095) (hr : r.toNat ≤ x.toNat) :
    (s.setMem (s.mem.writeList s.I.toNat (s.regsUpTo x))).readByte (s.indexAddr r.toNat) = s.reg r := by
  have hlen := s.length_regsUpTo x
  have hadr : s.indexAddr x.toNat = s.I.toNat + x.toNat := rfl
  rw [readByte_setMem_writeList hm (by omega) (by omega), s.getElem_regsUpTo x r (by omega)]

theorem decimalDigits_toNat (v : Byte) :
    ((decimalDigits v)[0]'(by simp [decimalDigits])).toNat = v.toNat / 100 ∧
      ((decimalDigits v)[1]'(by simp [decimalDigits])).toNat = v.toNat / 10 % 10 ∧
      ((decimalDigits v)[2]'(by simp [decimalDigits])).toNat = v.toNat % 10 := by
  have hv := v.isLt
  simp only [decimalDigits, List.getElem_cons_zero, List.getElem_cons_succ, BitVec.toNat_ofNat]
  omega

/-- Settles O48: the three digits of `V[x]` are the three bytes stored at I. -/
theorem decimalDigitsStored : Obligations.DecimalDigitsStored := by
  intro x s
  refine ⟨decode_packXKK_ldBVx x, fun hgt => (exec_ldBVx x).trans (if_neg (Nat.not_le_of_gt hgt)), fun hle hm =>
    ⟨_, (exec_ldBVx x).trans (if_pos hle), ?_⟩⟩
  have hfit : s.I.toNat + (decimalDigits (s.reg x)).length ≤ 4096 := by
    rw [length_decimalDigits]
    omega
  obtain ⟨hundreds, tens, ones⟩ := decimalDigits_toNat (s.reg x)
  rw [← readByte_setMem_writeList hm hfit] at hundreds tens ones
  exact ⟨hundreds, tens, ones, by omega, onlyBytes_setMem_writeList (length_decimalDigits _)⟩

/-- Settles O49: FX55 writes the run `V[0]` to `V[x]` at I. -/
theorem registersStored : Obligations.RegistersStored := fun x s =>
  ⟨decode_packXKK_ldMemVx x, fun hgt => (exec_ldMemVx x).trans (if_neg (Nat.not_le_of_gt hgt)), fun hle hm =>
    ⟨_, exec_ldMemVx_of_le hle, fun _ => readByte_stored_reg hm hle,
      onlyBytes_setMem_writeList (s.length_regsUpTo x)⟩⟩

/-! ### Loads -/

theorem exec_ldVxMem_of_le {x : Reg} (h : s.indexAddr x.toNat ≤ 4095) :
    exec (.ldVxMem x) s = .next (s.setRegs (s.mem.readList s.I.toNat (x.toNat + 1))) :=
  (exec_ldVxMem x).trans (if_pos h)

/-- What FX65 leaves in each register (45_key_timer_mem.md rule R200). -/
theorem reg_setRegs_readList {x r : Reg} :
    (s.setRegs (s.mem.readList s.I.toNat (x.toNat + 1))).reg r =
      if r.toNat ≤ x.toNat then s.readByte (s.indexAddr r.toNat) else s.reg r := by
  rw [State.reg_setRegs]
  simp only [Memory.length_readList, Memory.getElem_readList, Nat.lt_succ_iff]
  rfl

/-- Settles O50: FX65 writes the run read at I to `V[0]` to `V[x]`. -/
theorem registersLoaded : Obligations.RegistersLoaded := fun x s =>
  ⟨decode_packXKK_ldVxMem x, fun hgt => (exec_ldVxMem x).trans (if_neg (Nat.not_le_of_gt hgt)), fun hle =>
    ⟨_, exec_ldVxMem_of_le hle, fun _ hr => reg_setRegs_readList.trans (if_pos hr), rfl,
      fun _ hr => reg_setRegs_readList.trans (if_neg hr), s.setRegs_readByte _⟩⟩

/-- Settles O51: FX65 reads at I + r the byte FX55 stored there, which is `V[r]`. -/
theorem storeThenLoadRestoresRegisters : Obligations.StoreThenLoadRestoresRegisters := by
  intro x s t u hm hle h hI hkeep
  cases (exec_ldMemVx_of_le hle).symm.trans h
  have hadr : ∀ k, u.indexAddr k = s.indexAddr k := fun k => congrArg (fun i : Word => i.toNat + k) hI
  refine ⟨_, exec_ldVxMem_of_le ((hadr _).trans_le hle), fun r hr => ?_⟩
  rw [reg_setRegs_readList, if_pos hr, hadr, hkeep _ hr, readByte_stored_reg hm hle hr]

theorem fetchWord_at {a : Nat} (h : a ≤ 4094) :
    fetchWord { s with PC := BitVec.ofNat 16 a } = some (wordOfBytes (s.readByte a) (s.readByte (a + 1))) := by
  have ha : (BitVec.ofNat 16 a).toNat = a := by
    rw [BitVec.toNat_ofNat]
    omega
  have hf := fetchWord_eq_some (s := { s with PC := BitVec.ofNat 16 a }) (ha.trans_le h)
  rwa [ha] at hf

/-- Settles O52: the fetch at I + y reads the two bytes FX55 stored there. -/
theorem storedWordIsFetched : Obligations.StoredWordIsFetched := by
  intro x y z s hm hle hz hzx
  refine ⟨_, exec_ldMemVx_of_le hle, ?_⟩
  have hnext : s.indexAddr y.toNat + 1 = s.indexAddr z.toNat := by
    rw [hz]
    rfl
  have hlast : s.indexAddr z.toNat ≤ s.indexAddr x.toNat := Nat.add_le_add_left hzx _
  rw [fetchWord_at (by omega), hnext, readByte_stored_reg hm hle (by omega), readByte_stored_reg hm hle hzx]

end

end Sys2Proof.Machine
end

section
/-! PROOFS. Drawing (44_index_draw.md): DXYN in the terms of `State.spriteAt`, the double draw, and the sentence on
its VF that fails. -/

namespace Sys2Proof.Machine

variable {s t u : State} {x y : Reg} {n : Nibble}

/-! ### One draw -/

theorem drawn_fb_getElem {p : Nat} (hp : p < 2048) : (s.drawn x y n).fb[p] = (s.fb[p] ^^ s.spriteAt x y n p) :=
  s.draw_fst x y n p hp

theorem drawn_fb_getElem? {p : Nat} (hp : p < 2048) :
    (s.drawn x y n).fb[p]? = (s.fb[p]?).map (· ^^ s.spriteAt x y n p) := by
  rw [Vector.getElem?_eq_getElem hp, Vector.getElem?_eq_getElem hp, drawn_fb_getElem hp, Option.map_some]

theorem draw_snd_iff_spriteHits : (s.draw x y n).2 = true ↔ s.spriteHits x y n := by
  rw [State.draw_snd, State.spriteHits]
  refine exists_congr fun p =>
    ⟨fun ⟨hp, hon, hsprite⟩ => ⟨hp, ?_, hsprite⟩, fun ⟨hp, hon, hsprite⟩ => ⟨hp, ?_, hsprite⟩⟩
  · rw [Vector.getElem?_eq_getElem hp, hon]
  · rw [Vector.getElem?_eq_getElem hp] at hon
    exact Option.some.inj hon

theorem drawn_vf : (s.drawn x y n).reg Reg.vf = if (s.draw x y n).2 then 1#8 else 0#8 :=
  (State.reg_setFlag _ _ _).trans (if_pos rfl)

theorem drawn_vf_eq_one_iff : (s.drawn x y n).reg Reg.vf = 1#8 ↔ s.spriteHits x y n := by
  rw [drawn_vf, ← draw_snd_iff_spriteHits]
  cases (s.draw x y n).2 <;> decide

theorem drawn_vf_eq_zero_iff : (s.drawn x y n).reg Reg.vf = 0#8 ↔ ¬ s.spriteHits x y n := by
  rw [drawn_vf, ← draw_snd_iff_spriteHits]
  cases (s.draw x y n).2 <;> decide

theorem drawn_reg_ne {r : Reg} (h : r ≠ Reg.vf) : (s.drawn x y n).reg r = s.reg r :=
  (State.reg_setFlag _ _ _).trans (if_neg h)

theorem drawn_readByte (a : Nat) : (s.drawn x y n).readByte a = s.readByte a := rfl

/-- Settles O40: `State.drawn` inside the address space, the one halt past it. -/
theorem drawXorsSpriteAndReportsCollision : Obligations.DrawXorsSpriteAndReportsCollision := fun x y n _ =>
  ⟨decode_packXYN_drw x y n, exec_drw_of_gt x y, fun h => ⟨_, exec_drw_of_le x y n h, fun _ => drawn_fb_getElem?,
    drawn_vf_eq_one_iff.mpr, drawn_vf_eq_zero_iff.mpr, fun _ => drawn_reg_ne, rfl, drawn_readByte⟩⟩

/-! ### Two equal draws -/

/-- The sprite depends on its position, on I and on its own bytes alone. -/
theorem spriteAt_congr (hI : u.I = s.I) (hx : u.reg x = s.reg x) (hy : u.reg y = s.reg y)
    (hbytes : ∀ r, r < n.toNat → u.readByte (s.I.toNat + r) = s.readByte (s.I.toNat + r)) (p : Nat) :
    u.spriteAt x y n p = s.spriteAt x y n p := by
  unfold State.spriteAt
  rw [hI, hx, hy]
  by_cases hrow : (s.reg y).toNat % 32 ≤ p / 64 ∧ p / 64 < (s.reg y).toNat % 32 + n.toNat
  · rw [hbytes _ (by omega)]
  · rw [decide_eq_false fun ⟨_, _, hlo, hhi⟩ => hrow ⟨hlo, hhi⟩, Bool.false_and, Bool.false_and]

theorem not_drw_halts (h : n = 0#4 ∨ s.I.toNat + n.toNat - 1 ≤ 4095) :
    ¬ (0 < n.toNat ∧ s.I.toNat + n.toNat - 1 > 4095) := by
  rintro ⟨hpos, hgt⟩
  obtain rfl | hle := h
  · exact absurd hpos (by decide)
  · omega

/-- Where the frame is that of a first draw, the same sprite hits exactly the pixels that were off before it. -/
theorem spriteHits_after_draw (hfb : u.fb = (s.drawn x y n).fb)
    (hsprite : ∀ p, u.spriteAt x y n p = s.spriteAt x y n p) :
    u.spriteHits x y n ↔ ∃ p, p < 2048 ∧ s.fb[p]? = some false ∧ s.spriteAt x y n p = true := by
  refine exists_congr fun p => and_congr_right fun hp => ?_
  rw [hfb, hsprite, drawn_fb_getElem? hp, Vector.getElem?_eq_getElem hp]
  cases s.fb[p] <;> cases s.spriteAt x y n p <;> decide

/-- Settles O41: the second draw XORs the same sprite onto the frame of the first. -/
theorem doubleDrawRestores : Obligations.DoubleDrawRestores := by
  intro x y n s t u hfit h hfb hI hx hy hbytes
  cases (exec_drw_of_le _ _ _ (not_drw_halts hfit)).symm.trans h
  have hsprite := spriteAt_congr hI hx hy hbytes
  have hhits := spriteHits_after_draw hfb hsprite
  refine ⟨_, exec_drw_of_le _ _ _ (not_drw_halts (hI ▸ hfit)), ?frame, drawn_vf_eq_one_iff.trans hhits,
    drawn_vf_eq_zero_iff.trans (not_congr hhits)⟩
  case frame =>
    ext p hp
    rw [drawn_fb_getElem hp, hsprite]
    simp only [hfb, drawn_fb_getElem hp, Bool.xor_assoc, Bool.xor_self, Bool.xor_false]

/-- Refutes O42: with every pixel on and the row F0 at I = 0, the first draw turns four pixels off and the second
turns them on again, so it erases nothing and VF is 0, although the sprite lands inside the frame. -/
theorem not_secondDrawAlwaysCollides : ¬ Obligations.SecondDrawAlwaysCollides := by
  intro hclaim
  let s : State := { State.reset with fb := Vector.replicate 2048 true }
  have hfit : (1#4 : Nibble) = 0#4 ∨ s.I.toNat + (1#4 : Nibble).toNat - 1 ≤ 4095 := .inr (by decide)
  have hfirst : exec (.drw 0 0 1) s = .next (s.drawn 0 0 1) := exec_drw_of_le _ _ _ (not_drw_halts hfit)
  have hreg : (s.drawn 0 0 1).reg 0 = s.reg 0 := drawn_reg_ne (by decide)
  obtain ⟨w, hsecond, -, hone, -⟩ :=
    doubleDrawRestores 0 0 1 s _ _ hfit hfirst rfl rfl hreg hreg fun _ _ => rfl
  have hlands : ∃ p, p < 2048 ∧ s.spriteAt 0 0 1 p = true := ⟨0, by decide, by decide⟩
  have hvf := (hclaim 0 0 1 s _ _ w hfit hfirst rfl rfl hreg hreg (fun _ _ => rfl) hsecond).mpr hlands
  obtain ⟨p, hp, hoff, -⟩ := hone.mp hvf
  have hon : s.fb[p]? = some true := by simp [s, hp]
  cases hon.symm.trans hoff

end Sys2Proof.Machine
end
